-- ==== Sys2Proof/Word.lean ====
section
/-! DEFINITION. The words of the block: bytes, and the 16-bit values of `LEN`, `CRC` and `CAP`
(spec/00_scope.md R4, spec/10_state.md R10). Every value is unsigned (R4). -/

namespace Sys2Proof

/-- `bits8`: a byte of the frame buffer, a command code, an 8-bit register (R4, R30). -/
abbrev Byte := BitVec 8

/-- `bits16`: the width of `LEN`, `CRC` and `CAP` (R10, R14). -/
abbrev Half := BitVec 16

end Sys2Proof
end

