-- ==== Sys2Proof/Syntax.lean ====
section
/-! DEFINITION. The commands of the block, one constructor for each row of spec/opcode_table.json.
A command has no operand in its encoding (spec/30_encoding.md R46). The seven reserved rows are one
range (R48), split in the table so that each row is one match-and-mask pattern; a row of several
codes carries the code that was written (log entry 12). -/

namespace Sys2Proof

/-- A command (spec/30_encoding.md R47). -/
inductive Instr where
  /-- 0x00 `NOP` (R105). -/
  | nop
  /-- 0x01 `CRC_A` (R66). -/
  | crcA
  /-- 0x02 `CRC_B` (R67). -/
  | crcB
  /-- 0x03 `APPEND_CRC_A` (R68). -/
  | appendCrcA
  /-- 0x04 `APPEND_CRC_B` (R69). -/
  | appendCrcB
  /-- 0x05 `CHECK_CRC_A` (R70). -/
  | checkCrcA
  /-- 0x06 `CHECK_CRC_B` (R71). -/
  | checkCrcB
  /-- 0x07 `CASCADE_UID` (R90). -/
  | cascadeUid
  /-- 0x08 `UNCASCADE_UID` (R91). -/
  | uncascadeUid
  /-- 0x09, reserved (R48). -/
  | reserved09
  /-- 0x0A to 0x0B, reserved (R48). -/
  | reserved0A0B (code : Byte)
  /-- 0x0C to 0x0F, reserved (R48). -/
  | reserved0C0F (code : Byte)
  /-- 0x10 to 0x1F, reserved (R48). -/
  | reserved101F (code : Byte)
  /-- 0x20 to 0x3F, reserved (R48). -/
  | reserved203F (code : Byte)
  /-- 0x40 to 0x7F, reserved (R48). -/
  | reserved407F (code : Byte)
  /-- 0x80 to 0xFF, reserved (R48). -/
  | reserved80FF (code : Byte)
deriving DecidableEq, Repr

end Sys2Proof
end

