-- ==== Sys2Proof/WellFormed.lean ====
section
/-! DEFINITION. The check of a command: a reserved row's code lies in that row's range
(spec/30_encoding.md R47, the match and mask of spec/opcode_table.json). -/

namespace Sys2Proof

/-- The command is one the encoding has (R47). -/
def Instr.wf : Instr → Bool
  | .nop => true
  | .crcA => true
  | .crcB => true
  | .appendCrcA => true
  | .appendCrcB => true
  | .checkCrcA => true
  | .checkCrcB => true
  | .cascadeUid => true
  | .uncascadeUid => true
  | .reserved09 => true
  | .reserved0A0B code => code &&& 0xFE#8 == 0x0A#8
  | .reserved0C0F code => code &&& 0xFC#8 == 0x0C#8
  | .reserved101F code => code &&& 0xF0#8 == 0x10#8
  | .reserved203F code => code &&& 0xE0#8 == 0x20#8
  | .reserved407F code => code &&& 0xC0#8 == 0x40#8
  | .reserved80FF code => code &&& 0x80#8 == 0x80#8

/-- The command names no operation: codes 0x09 to 0xFF (R48). -/
def Instr.isReserved : Instr → Bool
  | .nop => false
  | .crcA => false
  | .crcB => false
  | .appendCrcA => false
  | .appendCrcB => false
  | .checkCrcA => false
  | .checkCrcB => false
  | .cascadeUid => false
  | .uncascadeUid => false
  | .reserved09 => true
  | .reserved0A0B _ => true
  | .reserved0C0F _ => true
  | .reserved101F _ => true
  | .reserved203F _ => true
  | .reserved407F _ => true
  | .reserved80FF _ => true

end Sys2Proof
end

