-- ==== Sys2Proof/Decode.lean ====
section
/-! DEFINITION. Format `CMD8` (spec/30_encoding.md R45): a command is one byte, all of it the
operation code. The decoder is total on bytes (R47); a sequence of bytes that is not exactly one byte
is rejected by name, because no command is longer or shorter (R50). -/

namespace Sys2Proof

/-- Why a sequence of bytes is no command (R50). -/
inductive DecodeReject where
  /-- There is no byte. -/
  | empty
  /-- There is more than one byte: no byte is a prefix for the next (R50). -/
  | tooLong
deriving DecidableEq, Repr

/-- The command that the byte selects (the opcode map, R47). Each row is matched on all the bits of
its mask; 0x80 to 0xFF are what is left, since bit 7 decides between the last row and the others. -/
def decode (op : Byte) : Instr :=
  if op = 0x00#8 then .nop
  else if op = 0x01#8 then .crcA
  else if op = 0x02#8 then .crcB
  else if op = 0x03#8 then .appendCrcA
  else if op = 0x04#8 then .appendCrcB
  else if op = 0x05#8 then .checkCrcA
  else if op = 0x06#8 then .checkCrcB
  else if op = 0x07#8 then .cascadeUid
  else if op = 0x08#8 then .uncascadeUid
  else if op = 0x09#8 then .reserved09
  else if op &&& 0xFE#8 = 0x0A#8 then .reserved0A0B op
  else if op &&& 0xFC#8 = 0x0C#8 then .reserved0C0F op
  else if op &&& 0xF0#8 = 0x10#8 then .reserved101F op
  else if op &&& 0xE0#8 = 0x20#8 then .reserved203F op
  else if op &&& 0xC0#8 = 0x40#8 then .reserved407F op
  else .reserved80FF op

/-- The command in a sequence of bytes: exactly one byte (R45, R50). -/
def decodeBytes : List Byte → Except DecodeReject Instr
  | [] => .error .empty
  | [op] => .ok (decode op)
  | _ :: _ :: _ => .error .tooLong

/-- The code of a command (R47); a reserved row's own code (R48). -/
def encode : Instr → Byte
  | .nop => 0x00#8
  | .crcA => 0x01#8
  | .crcB => 0x02#8
  | .appendCrcA => 0x03#8
  | .appendCrcB => 0x04#8
  | .checkCrcA => 0x05#8
  | .checkCrcB => 0x06#8
  | .cascadeUid => 0x07#8
  | .uncascadeUid => 0x08#8
  | .reserved09 => 0x09#8
  | .reserved0A0B code => code
  | .reserved0C0F code => code
  | .reserved101F code => code
  | .reserved203F code => code
  | .reserved407F code => code
  | .reserved80FF code => code

/-- A row of spec/opcode_table.json: a code belongs to it when its masked bits are the pattern. -/
structure Row where
  mnemonic : String
  pattern : Byte
  mask : Byte
deriving DecidableEq, Repr

/-- The code belongs to the row. -/
def Row.fits (r : Row) (op : Byte) : Bool := op &&& r.mask == r.pattern

/-- The row of a command, as spec/opcode_table.json writes it. -/
def Instr.row : Instr → Row
  | .nop => ⟨"NOP", 0x00#8, 0xFF#8⟩
  | .crcA => ⟨"CRC_A", 0x01#8, 0xFF#8⟩
  | .crcB => ⟨"CRC_B", 0x02#8, 0xFF#8⟩
  | .appendCrcA => ⟨"APPEND_CRC_A", 0x03#8, 0xFF#8⟩
  | .appendCrcB => ⟨"APPEND_CRC_B", 0x04#8, 0xFF#8⟩
  | .checkCrcA => ⟨"CHECK_CRC_A", 0x05#8, 0xFF#8⟩
  | .checkCrcB => ⟨"CHECK_CRC_B", 0x06#8, 0xFF#8⟩
  | .cascadeUid => ⟨"CASCADE_UID", 0x07#8, 0xFF#8⟩
  | .uncascadeUid => ⟨"UNCASCADE_UID", 0x08#8, 0xFF#8⟩
  | .reserved09 => ⟨"RESERVED_09_09", 0x09#8, 0xFF#8⟩
  | .reserved0A0B _ => ⟨"RESERVED_0A_0B", 0x0A#8, 0xFE#8⟩
  | .reserved0C0F _ => ⟨"RESERVED_0C_0F", 0x0C#8, 0xFC#8⟩
  | .reserved101F _ => ⟨"RESERVED_10_1F", 0x10#8, 0xF0#8⟩
  | .reserved203F _ => ⟨"RESERVED_20_3F", 0x20#8, 0xE0#8⟩
  | .reserved407F _ => ⟨"RESERVED_40_7F", 0x40#8, 0xC0#8⟩
  | .reserved80FF _ => ⟨"RESERVED_80_FF", 0x80#8, 0x80#8⟩

/-- The sixteen rows of the table, in its order. -/
def opcodeTable : List Row :=
  [Instr.nop, .crcA, .crcB, .appendCrcA, .appendCrcB, .checkCrcA, .checkCrcB, .cascadeUid,
    .uncascadeUid, .reserved09, .reserved0A0B 0x0A#8, .reserved0C0F 0x0C#8, .reserved101F 0x10#8,
    .reserved203F 0x20#8, .reserved407F 0x40#8, .reserved80FF 0x80#8].map Instr.row

/-- The bytes of an instruction of `n` bytes whose bits are `w`, the first byte in bits 7 to 0. -/
def bytesOfWord : Nat → Nat → List Byte
  | 0, _ => []
  | n + 1, w => BitVec.ofNat 8 w :: bytesOfWord n (w / 256)

/-- The command the decoder reads from an instruction of `nbits` bits `w`, numbered as
spec/opcode_table.json numbers them. -/
def decodeTableWord (nbits w : Nat) : Option Instr :=
  match decodeBytes (bytesOfWord ((nbits + 7) / 8) w) with
  | .ok i => some i
  | .error _ => none

end Sys2Proof
end

