-- ==== Sys2Proof/Config.lean ====
section
/-! DEFINITION. What an implementation fixes (spec/00_scope.md R3) and the free values the spec
leaves open (spec/93_implementation_defined.md U1). The open parameter `PLATFORM_BUS`
(spec/20_memory.md R38) is used by no rule and has no field (log entry 11). -/

namespace Sys2Proof

/-- The block's one implementation parameter, with the range R3 gives it. The bound is carried here,
once: a `Config` outside the range cannot be built. -/
structure Config where
  /-- `BUFCAP`, the number of bytes of the frame buffer (R3). -/
  bufcap : Nat
  /-- R3: the buffer holds the longest cascade-tagged UID. -/
  atLeast : 12 ≤ bufcap := by decide
  /-- R3: the 16-bit `LEN` holds every valid length. -/
  atMost : bufcap ≤ 65535 := by decide
deriving DecidableEq, Repr

/-- The reference value of R3. DESIGN CHOICE (log entry 3): `State.reset` has this value; every
statement is over all states and so over every `BUFCAP`. -/
def Config.reference : Config := { bufcap := 256 }

/-- The value a read of a buffer byte gives when nothing has written the byte since the last reset.
No body: nothing can be proved of it. The first argument numbers the occasion of the read (the
counter `draws` of State), the second is the byte's index, so that each read is a free draw
(spec/93_implementation_defined.md U1). DESIGN CHOICE (log entry 4), safe. -/
opaque Config.freeByte : Nat → Nat → Byte

end Sys2Proof
end

