-- ==== Sys2Proof/Machine/State.lean ====
section
/-! DEFINITION. The state of the block (spec/10_state.md R10), the host's transactions that drive it
(R20), and why a step can stop. -/

namespace Sys2Proof.Machine

/-- The frame buffer `BUF` (spec/20_memory.md R30) as the bytes written since the last reset, by
index. A byte that is not listed has not been written; it has no value of its own
(spec/70_reset_and_hazards.md R132), and a read of it is a free draw (log entry 4). -/
abbrev Memory := List Host.Cell

/-- The one canonical form of a memory: indices strictly rising. An unlisted byte has no value, so no
entry can equal it. -/
abbrev Memory.wf (m : Memory) : Prop := (m.map Prod.fst).Pairwise (· < ·)

/-- Every listed byte lies in the buffer (spec/20_memory.md R30). -/
abbrev Memory.within (m : Memory) (cap : Nat) : Prop := ∀ c ∈ m, c.1 < cap

/-- The registers of the register file (spec/10_state.md R14). -/
inductive Reg where
  | cmd | len | crc | err | flags | level | cap
deriving DecidableEq, Repr

/-- A value with its width, as a transaction carries it and a reply returns it (R14, R20: "at its
width"). -/
structure Datum where
  width : Nat
  bits : BitVec width
deriving DecidableEq, Repr

/-- What the host can do to the block (spec/10_state.md R20). A transaction may break R20's
precondition: the block then refuses it (spec/60_exceptions.md R124). -/
inductive Transaction where
  /-- `RegRead(n)`. -/
  | regRead (n : Nat)
  /-- `RegWrite(n, v)`. -/
  | regWrite (n : Nat) (v : Datum)
  /-- `BufRead(i)`. -/
  | bufRead (i : Nat)
  /-- `BufWrite(i, b)`. -/
  | bufWrite (i : Nat) (v : Datum)
  /-- `Reset` (spec/70_reset_and_hazards.md R130). -/
  | reset
deriving DecidableEq, Repr

/-- The four errors a command can report (spec/60_exceptions.md R110). -/
inductive Error where
  | bufferTooSmall | invalidArgument | protocol | unsupported
deriving DecidableEq, Repr

/-- The state: the six items of R10, the parameter `BUFCAP`, and the model's own fields. -/
structure State where
  /-- The parameter `BUFCAP` (R3). Fixed: no step changes it. -/
  config : Config
  /-- `BUF` (R10, R30). -/
  buf : Memory
  /-- `LEN` (R12). -/
  len : Half
  /-- `CRC` (R13). -/
  crc : Half
  /-- `ERR` (R10, spec/60_exceptions.md R110). -/
  err : Byte
  /-- `MATCH` (R17). -/
  matchFlag : BitVec 1
  /-- `LEVEL` (R18). -/
  level : BitVec 2
  /-- The MODEL's own: the host's transactions not yet taken, oldest first (log entry 1). -/
  pending : List Transaction
  /-- The MODEL's own: the replies given so far, oldest first (log entry 1). -/
  replies : List Datum
  /-- The MODEL's own: numbers the occasions on which an unwritten byte was read (log entry 4). -/
  draws : Nat
deriving DecidableEq, Repr

/-- The block never stops with a fault: a command's error is a value in `ERR`
(spec/60_exceptions.md R110, R117), and a transaction without a meaning is refused (R124). So there
is no reason to fault, and the type is empty; this is safe (log entry 9). -/
inductive Fault
deriving DecidableEq, Repr

/-- Why a step is refused. -/
inductive Refusal where
  /-- Raised by `exec` for a command that has no meaning yet. Safe. -/
  | notModelled (mnemonic : String)
  /-- Raised by `RegRead` and `RegWrite` that name a register above 6
  (spec/10_state.md R15, spec/93_implementation_defined.md U3). Safe: the spec gives it no meaning. -/
  | noSuchRegister (number : Nat)
  /-- Raised by `BufRead` and `BufWrite` at an index of `BUFCAP` or above
  (spec/20_memory.md R32, U4). Safe: the spec gives it no meaning. -/
  | noSuchIndex (index : Nat)
  /-- Raised by `RegWrite` and `BufWrite` that carry a value wider or narrower than what they write
  (spec/60_exceptions.md R124, U3). Safe: the spec gives it no meaning. -/
  | wrongWidth (expected given : Nat)
deriving DecidableEq, Repr

/-- The block right after reset (spec/70_reset_and_hazards.md R131): the registers at zero, no byte of
the buffer written. `BUFCAP` is the reference value of R3 and `draws` is 0: DESIGN CHOICE (log
entries 3 and 5). The host has issued nothing. -/
def State.reset : State where
  config := Config.reference
  buf := []
  len := 0#16
  crc := 0#16
  err := 0#8
  matchFlag := 0#1
  level := 0#2
  pending := []
  replies := []
  draws := 0

end Sys2Proof.Machine
end

