-- ==== Sys2Proof/Machine/Ops.lean ====
section
/-! DEFINITION. The named operations over the buffer, the registers and the status triple. -/

namespace Sys2Proof.Machine

/-! ### The buffer (spec/20_memory.md R30, R31) -/

/-- The byte at an index, if it has been written since the last reset (R132). -/
def Memory.read : Memory → Nat → Option Byte
  | [], _ => none
  | (a, b) :: rest, i => if a = i then some b else Memory.read rest i

/-- `BUF[i] <- b`, keeping the indices rising. -/
def Memory.write : Memory → Nat → Byte → Memory
  | [], i, b => [(i, b)]
  | (a, v) :: rest, i, b =>
    if i < a then (i, b) :: (a, v) :: rest
    else if i = a then (i, b) :: rest
    else (a, v) :: Memory.write rest i b

/-- The byte at an index becomes one that has not been written. -/
def Memory.erase (m : Memory) (i : Nat) : Memory := m.filter fun c => c.1 ≠ i

/-- Store what a byte holds: "a stored byte copied from an unwritten byte is itself unwritten"
(spec/70_reset_and_hazards.md R132). -/
def Memory.put (m : Memory) (i : Nat) : Option Byte → Memory
  | some b => m.write i b
  | none => m.erase i

/-- Store a sequence from an index up. -/
def Memory.putAll : Memory → Nat → List (Option Byte) → Memory
  | m, _, [] => m
  | m, i, c :: rest => Memory.putAll (m.put i c) (i + 1) rest

/-- What the first `n` bytes hold, unwritten ones included. -/
def Memory.contents (m : Memory) (n : Nat) : List (Option Byte) := (List.range n).map m.read

/-- All the bytes at the given indices have been written. -/
def Memory.written (m : Memory) (indices : List Nat) : Bool :=
  indices.all fun i => (m.read i).isSome

/-! ### Reading (spec/93_implementation_defined.md U1) -/

/-- `LEN` as a length (spec/00_scope.md R4: lengths are natural numbers). -/
def State.lenNat (s : State) : Nat := s.len.toNat

/-- `BUF[i]` as a read gives it: the byte, or a free draw where nothing has written it. DESIGN CHOICE
between the two treatments of U1 (log entry 4), safe. -/
def State.byteAt (s : State) (i : Nat) : Byte :=
  (s.buf.read i).getD (Config.freeByte s.draws i)

/-- `BUF[0..n-1]` as a read gives it (spec/00_scope.md R4: empty when `n` is 0). -/
def State.bytes (s : State) (n : Nat) : List Byte := (List.range n).map s.byteAt

/-- The counter of draws moves on when a byte that was read had not been written, so that the next
read draws afresh (U1). Nothing else changes: a read has no side effect (spec/20_memory.md R37). -/
def State.afterReading (s : State) (indices : List Nat) : State :=
  if s.buf.written indices then s else { s with draws := s.draws + 1 }

/-! ### Ending a command (spec/60_exceptions.md R112, R113) -/

/-- The codes of `ERR` (R110). -/
def Error.code : Error → Byte
  | .bufferTooSmall => 0x01#8
  | .invalidArgument => 0x02#8
  | .protocol => 0x03#8
  | .unsupported => 0x04#8

/-- `raise E` (R112): the block's way of taking an exception. The status triple is written and
nothing else changes; no control flow changes (R117), and there is nothing to return from (R119). -/
def raise (e : Error) (s : State) : State :=
  { s with err := e.code, matchFlag := 0#1, level := 0#2 }

/-- `done(m, l)` (R113): the successful end, which overwrites an earlier error (R119). -/
def done (m : BitVec 1) (l : BitVec 2) (s : State) : State :=
  { s with err := 0x00#8, matchFlag := m, level := l }

/-- The check that every command but `NOP` and the reserved codes makes first: `LEN <= BUFCAP`, or
`InvalidArgument` (R115, R116). -/
def checkLen (s : State) (body : State → State) : State :=
  if s.config.bufcap < s.lenNat then raise .invalidArgument s else body s

/-! ### The register file (spec/10_state.md R14) -/

/-- The register of a number, 0 to 6 (R14); none above (R15). -/
def Reg.ofNumber : Nat → Option Reg
  | 0 => some .cmd
  | 1 => some .len
  | 2 => some .crc
  | 3 => some .err
  | 4 => some .flags
  | 5 => some .level
  | 6 => some .cap
  | _ => none

/-- The number of a register (R14). -/
def Reg.number : Reg → Nat
  | .cmd => 0
  | .len => 1
  | .crc => 2
  | .err => 3
  | .flags => 4
  | .level => 5
  | .cap => 6

/-- The width of a register (R14). -/
def Reg.width : Reg → Nat
  | .cmd => 8
  | .len => 16
  | .crc => 16
  | .err => 8
  | .flags => 8
  | .level => 8
  | .cap => 16

/-- The value of a datum, if it has the width asked for (R124: a value of the wrong width is outside
the contract). -/
def Datum.ofWidth (w : Nat) (v : Datum) : Option (BitVec w) :=
  if h : v.width = w then some (v.bits.cast h) else none

/-- The block's reply, appended to those already given (the Reply column of R20). -/
def State.reply (s : State) (v : Datum) : State := { s with replies := s.replies ++ [v] }

end Sys2Proof.Machine
end

