-- ==== Sys2Proof/Machine/Operands.lean ====
section
/-! DEFINITION. The implicit operands of the commands (spec/30_encoding.md R46), the byte order where
a 16-bit value meets the buffer (spec/20_memory.md R34), and the lengths of a UID and of its
cascade-tagged form (spec/41_cascade_uid.md R85, R88). -/

namespace Sys2Proof.Machine

/-- The payload `BUF[0..LEN-1]`, empty when `LEN = 0` (spec/00_scope.md R5). -/
def State.payload (s : State) : List Byte := s.bytes s.lenNat

/-- The indices of the payload. -/
def State.payloadIndices (s : State) : List Nat := List.range s.lenNat

/-- `le16(v)`: the low byte first (R34). -/
def le16 (v : Half) : List Byte := [v.extractLsb' 0 8, v.extractLsb' 8 8]

/-- `from_le16(b0, b1)` (R34). -/
def fromLe16 (b0 b1 : Byte) : Half := (b1.setWidth 16 <<< 8) ||| b0.setWidth 16

/-- The payload part of a frame, `BUF[0..LEN-3]` (spec/40_crc.md R70); used when `LEN >= 2`. -/
def State.framePayload (s : State) : List Byte := s.bytes (s.lenNat - 2)

/-- The CRC a frame carries, `from_le16(BUF[LEN-2], BUF[LEN-1])` (R70); used when `LEN >= 2`. -/
def State.frameCrc (s : State) : Half :=
  fromLe16 (s.byteAt (s.lenNat - 2)) (s.byteAt (s.lenNat - 1))

/-- `level_of_uid_len(n)`: defined for 4, 7 and 10 only (R85). -/
def levelOfUidLen (n : Nat) : Option Nat :=
  if n = 4 then some 1 else if n = 7 then some 2 else if n = 10 then some 3 else none

/-- The level of a cascade-tagged form by its length: defined for 4, 8 and 12 only (R88). -/
def levelOfFormLen (n : Nat) : Option Nat :=
  if n = 4 then some 1 else if n = 8 then some 2 else if n = 12 then some 3 else none

end Sys2Proof.Machine
end

