-- ==== Sys2Proof/Machine/Flags.lean ====
section
/-! DEFINITION. The block's one flag `MATCH` (spec/10_state.md R17) and the values the registers read
as (R14, R20). There are no carry, zero, sign or overflow flags (R17). -/

namespace Sys2Proof.Machine

/-- `MATCH` after a check: 1 when the computed CRC equals the received one (spec/40_crc.md R70, R71). -/
def matchOf (computed received : Half) : BitVec 1 := if computed = received then 1#1 else 0#1

/-- `FLAGS`: bit 0 is `MATCH`, bits 7:1 are hardwired 0 (R14, R20). -/
def State.flagsValue (s : State) : Byte := s.matchFlag.setWidth 8

/-- `LEVEL`: bits 1:0, bits 7:2 hardwired 0 (R14, R20). -/
def State.levelValue (s : State) : Byte := s.level.setWidth 8

/-- `CAP`: the constant `BUFCAP` (R14). -/
def State.capValue (s : State) : Half := BitVec.ofNat 16 s.config.bufcap

/-- What a read of a register gives, at the register's width (R20); `CMD` reads 0x00
(spec/42_control.md R109). -/
def State.regValue (s : State) : Reg → Datum
  | .cmd => ⟨8, 0x00#8⟩
  | .len => ⟨16, s.len⟩
  | .crc => ⟨16, s.crc⟩
  | .err => ⟨8, s.err⟩
  | .flags => ⟨8, s.flagsValue⟩
  | .level => ⟨8, s.levelValue⟩
  | .cap => ⟨16, s.capValue⟩

end Sys2Proof.Machine
end

