-- ==== Sys2Proof/Machine/Cascade.lean ====
section
/-! DEFINITION. The cascade-UID family (spec/41_cascade_uid.md): the functions `cascade` and
`uncascade` (R85 to R88) and the two commands (R90, R91). The layout works on sequences of anything,
because the commands move what a byte holds, and a byte may be one that nothing has written
(spec/70_reset_and_hazards.md R132; log entry 6). No BCC, no select code (R95). -/

namespace Sys2Proof.Machine

/-- The cascade tag (R86). -/
def cascadeTag : Byte := 0x88#8

/-- The fragments of a UID (R87): while another fragment follows, the tag and three UID bytes; the
last fragment is what is left. The number counts the fragments that are followed by another. -/
def addTags {α : Type} (tag : α) : Nat → List α → List α
  | 0, u => u
  | k + 1, u => tag :: (u.take 3 ++ addTags tag k (u.drop 3))

/-- The UID bytes of the fragments (R88): of each fragment that is followed by another the three bytes
after the tag, of the last fragment all. -/
def dropTags {α : Type} : Nat → List α → List α
  | 0, f => f
  | k + 1, f => (f.drop 1).take 3 ++ dropTags k (f.drop 4)

/-- The indices of the tags in a form of the given level: none, 0, or 0 and 4 (R87). -/
def tagIndices (level : Nat) : List Nat := (List.range (level - 1)).map (4 * ·)

/-- `cascade(u)` (R87): defined for 4, 7 and 10 bytes. -/
def cascade (u : List Byte) : Option (List Byte) :=
  (levelOfUidLen u.length).map fun level => addTags cascadeTag (level - 1) u

/-- `uncascade(s)` (R88): defined by the length first and the bytes at the tag positions second. -/
def uncascade (f : List Byte) : Option (List Byte) :=
  match levelOfFormLen f.length with
  | none => none
  | some level =>
    if (tagIndices level).all fun i => f[i]? == some cascadeTag then some (dropTags (level - 1) f)
    else none

/-- The body of `CASCADE_UID` (R90) after the check of `LEN <= BUFCAP`. No byte's value is looked at
(R94), so nothing is drawn. -/
def cascadeBuf (s : State) : State :=
  match levelOfUidLen s.lenNat with
  | none => raise .invalidArgument s
  | some level =>
    let form := addTags (some cascadeTag) (level - 1) (s.buf.contents s.lenNat)
    done 0#1 (BitVec.ofNat 2 level)
      { s with buf := s.buf.putAll 0 form, len := BitVec.ofNat 16 form.length }

/-- The body of `UNCASCADE_UID` (R91) after the check of `LEN <= BUFCAP`: the length, then the tags,
either of them `Protocol`. Only the bytes at the tag positions are looked at (log entry 8). -/
def uncascadeBuf (s : State) : State :=
  match levelOfFormLen s.lenNat with
  | none => raise .protocol s
  | some level =>
    let t := s.afterReading (tagIndices level)
    if (tagIndices level).all fun i => s.byteAt i == cascadeTag then
      let uid := dropTags (level - 1) (s.buf.contents s.lenNat)
      done 0#1 (BitVec.ofNat 2 level)
        { t with buf := s.buf.putAll 0 uid, len := BitVec.ofNat 16 uid.length }
    else raise .protocol t

/-- `CASCADE_UID` (R90). -/
def execCascadeUid (s : State) : Host.Outcome State Fault Refusal :=
  .next (checkLen s cascadeBuf)

/-- `UNCASCADE_UID` (R91). -/
def execUncascadeUid (s : State) : Host.Outcome State Fault Refusal :=
  .next (checkLen s uncascadeBuf)

end Sys2Proof.Machine
end

