-- ==== Sys2Proof/Machine/Control.lean ====
section
/-! DEFINITION. `NOP` (spec/42_control.md R105) and the reserved codes (spec/30_encoding.md R48). -/

namespace Sys2Proof.Machine

/-- `NOP`: no state is read, no state is written, the status triple included (R105). -/
def execNop (s : State) : Host.Outcome State Fault Refusal := .next s

/-- A reserved code: `Unsupported`, whatever `LEN` is (R48, spec/60_exceptions.md R116). -/
def unsupportedCommand (s : State) : State := raise .unsupported s

/-- 0x09 (R48). -/
def execReserved09 (s : State) : Host.Outcome State Fault Refusal := .next (unsupportedCommand s)

/-- 0x0A to 0x0B (R48). The code itself is not kept (spec/42_control.md R109). -/
def execReserved0A0B (_code : Byte) (s : State) : Host.Outcome State Fault Refusal :=
  .next (unsupportedCommand s)

/-- 0x0C to 0x0F (R48). -/
def execReserved0C0F (_code : Byte) (s : State) : Host.Outcome State Fault Refusal :=
  .next (unsupportedCommand s)

/-- 0x10 to 0x1F (R48). -/
def execReserved101F (_code : Byte) (s : State) : Host.Outcome State Fault Refusal :=
  .next (unsupportedCommand s)

/-- 0x20 to 0x3F (R48). -/
def execReserved203F (_code : Byte) (s : State) : Host.Outcome State Fault Refusal :=
  .next (unsupportedCommand s)

/-- 0x40 to 0x7F (R48). -/
def execReserved407F (_code : Byte) (s : State) : Host.Outcome State Fault Refusal :=
  .next (unsupportedCommand s)

/-- 0x80 to 0xFF (R48). -/
def execReserved80FF (_code : Byte) (s : State) : Host.Outcome State Fault Refusal :=
  .next (unsupportedCommand s)

end Sys2Proof.Machine
end

