-- ==== Sys2Proof/Machine/Crc.lean ====
section
/-! DEFINITION. The CRC family (spec/40_crc.md): the CRC functions (R60 to R65) and the six commands
(R66 to R71). -/

namespace Sys2Proof.Machine

/-! ### The CRC functions -/

/-- The polynomial x^16 + x^12 + x^5 + 1 as it appears in the right-shifting update (R60). -/
def crcPoly : Half := 0x8408#16

/-- One turn of the loop of `crc16_update` (R61): shift right, and fold in the polynomial when the
bit that leaves is 1. -/
def crc16Step (c : Half) : Half := if c.getLsbD 0 then (c >>> 1) ^^^ crcPoly else c >>> 1

/-- The loop of `crc16_update`, `n` turns of it. -/
def crc16Steps : Nat → Half → Half
  | 0, c => c
  | n + 1, c => crc16Steps n (crc16Step c)

/-- `crc16_update(c, b)`: one byte folded into the register (R61), bit 0 first (R60,
spec/20_memory.md R35). -/
def crc16Update (c : Half) (b : Byte) : Half := crc16Steps 8 (c ^^^ b.setWidth 16)

/-- The byte-at-a-time form of the update (R65); R61 is the definition. -/
def crc16UpdateBytewise (c : Half) (b : Byte) : Half :=
  let t : Byte := b ^^^ c.extractLsb' 0 8
  let u : Byte := t ^^^ (t <<< 4)
  (c >>> 8) ^^^ (u.setWidth 16 <<< 8) ^^^ (u.setWidth 16 <<< 3) ^^^ (u.setWidth 16 >>> 4)

/-- `crc16_raw(init, s)`: the sequence folded in, lowest index first (R62). -/
def crc16Raw (init : Half) (bs : List Byte) : Half := bs.foldl crc16Update init

/-- `crc_a(s)`: initial value 0x6363, no complement (R63). -/
def crcA (bs : List Byte) : Half := crc16Raw 0x6363#16 bs

/-- `crc_b(s)`: initial value 0xFFFF, all 16 bits complemented at the end (R64). -/
def crcB (bs : List Byte) : Half := ~~~ crc16Raw 0xFFFF#16 bs

/-! ### What the commands share -/

/-- `CRC <- crc(payload)`, then success (R66, R67). -/
def computeCrc (crc : List Byte → Half) (s : State) : State :=
  done 0#1 0#2 { s.afterReading s.payloadIndices with crc := crc s.payload }

/-- The CRC of the payload stored after the payload, low byte first, and `LEN` grown by 2; or
`BufferTooSmall`, with nothing written, when two bytes do not fit (R68, R69). -/
def appendCrc (crc : List Byte → Half) (s : State) : State :=
  if s.config.bufcap < s.lenNat + 2 then raise .bufferTooSmall s
  else
    done 0#1 0#2
      { s.afterReading s.payloadIndices with
        buf := s.buf.putAll s.lenNat ((le16 (crc s.payload)).map some)
        crc := crc s.payload
        len := BitVec.ofNat 16 (s.lenNat + 2) }

/-- The CRC of the payload part compared with the frame's last two bytes; or `Protocol` when the
frame is too short to hold a CRC (R70, R71). -/
def checkCrc (crc : List Byte → Half) (s : State) : State :=
  if s.lenNat < 2 then raise .protocol s
  else
    done (matchOf (crc s.framePayload) s.frameCrc) 0#2
      { s.afterReading s.payloadIndices with crc := crc s.framePayload }

/-! ### The commands -/

/-- `CRC_A` (R66). -/
def execCrcA (s : State) : Host.Outcome State Fault Refusal :=
  .next (checkLen s (computeCrc crcA))

/-- `CRC_B` (R67). -/
def execCrcB (s : State) : Host.Outcome State Fault Refusal :=
  .next (checkLen s (computeCrc crcB))

/-- `APPEND_CRC_A` (R68). -/
def execAppendCrcA (s : State) : Host.Outcome State Fault Refusal :=
  .next (checkLen s (appendCrc crcA))

/-- `APPEND_CRC_B` (R69). -/
def execAppendCrcB (s : State) : Host.Outcome State Fault Refusal :=
  .next (checkLen s (appendCrc crcB))

/-- `CHECK_CRC_A` (R70). -/
def execCheckCrcA (s : State) : Host.Outcome State Fault Refusal :=
  .next (checkLen s (checkCrc crcA))

/-- `CHECK_CRC_B` (R71). -/
def execCheckCrcB (s : State) : Host.Outcome State Fault Refusal :=
  .next (checkLen s (checkCrc crcB))

end Sys2Proof.Machine
end

