-- ==== Sys2Proof/Machine/Dispatch.lean ====
section
/-! DEFINITION. The meaning of each command, one arm per constructor. -/

namespace Sys2Proof.Machine

/-- The command's one indivisible state change (spec/10_state.md R19). -/
def exec (i : Instr) (s : State) : Host.Outcome State Fault Refusal :=
  match i with
  | .nop => Sys2Proof.Machine.execNop s
  | .crcA => Sys2Proof.Machine.execCrcA s
  | .crcB => Sys2Proof.Machine.execCrcB s
  | .appendCrcA => Sys2Proof.Machine.execAppendCrcA s
  | .appendCrcB => Sys2Proof.Machine.execAppendCrcB s
  | .checkCrcA => Sys2Proof.Machine.execCheckCrcA s
  | .checkCrcB => Sys2Proof.Machine.execCheckCrcB s
  | .cascadeUid => Sys2Proof.Machine.execCascadeUid s
  | .uncascadeUid => Sys2Proof.Machine.execUncascadeUid s
  | .reserved09 => Sys2Proof.Machine.execReserved09 s
  | .reserved0A0B code => Sys2Proof.Machine.execReserved0A0B code s
  | .reserved0C0F code => Sys2Proof.Machine.execReserved0C0F code s
  | .reserved101F code => Sys2Proof.Machine.execReserved101F code s
  | .reserved203F code => Sys2Proof.Machine.execReserved203F code s
  | .reserved407F code => Sys2Proof.Machine.execReserved407F code s
  | .reserved80FF code => Sys2Proof.Machine.execReserved80FF code s

end Sys2Proof.Machine
end

