-- ==== Sys2Proof/Machine/Transactions.lean ====
section
/-! DEFINITION. The host's transactions (spec/10_state.md R20): what each does, what it replies, and
when it is refused (spec/60_exceptions.md R124). -/

namespace Sys2Proof.Machine

/-- `RegRead(n)`: the register's value as the reply, and no side effect (R15, R20). -/
def regRead (n : Nat) (s : State) : Host.Outcome State Fault Refusal :=
  match Reg.ofNumber n with
  | none => .refused (.noSuchRegister n)
  | some r => .next (s.reply (s.regValue r))

/-- A write of a register (R20): `CMD` runs the command, `LEN` takes any value (R12), the others are
read-only and ignore it (R15). The value has the register's width. -/
def writeReg (r : Reg) (v : BitVec r.width) (s : State) : Host.Outcome State Fault Refusal :=
  match r, v with
  | .cmd, op => exec (decode op) s
  | .len, v => .next { s with len := v }
  | .crc, _ => .next s
  | .err, _ => .next s
  | .flags, _ => .next s
  | .level, _ => .next s
  | .cap, _ => .next s

/-- `RegWrite(n, v)`: refused when there is no such register, or when the value is not of its width
(R15, R20, U3). -/
def regWrite (n : Nat) (v : Datum) (s : State) : Host.Outcome State Fault Refusal :=
  match Reg.ofNumber n with
  | none => .refused (.noSuchRegister n)
  | some r =>
    match v.ofWidth r.width with
    | none => .refused (.wrongWidth r.width v.width)
    | some bits => writeReg r bits s

/-- `BufRead(i)`: the byte as the reply (R20); refused outside the buffer (spec/20_memory.md R32). -/
def bufRead (i : Nat) (s : State) : Host.Outcome State Fault Refusal :=
  if i < s.config.bufcap then .next ((s.afterReading [i]).reply ⟨8, s.byteAt i⟩)
  else .refused (.noSuchIndex i)

/-- `BufWrite(i, b)`: `BUF[i] <- b` and nothing else (R20); refused outside the buffer (R32) or with a
value that is no byte (R124; log entry 13). -/
def bufWrite (i : Nat) (v : Datum) (s : State) : Host.Outcome State Fault Refusal :=
  if i < s.config.bufcap then
    match v.ofWidth 8 with
    | none => .refused (.wrongWidth 8 v.width)
    | some b => .next { s with buf := s.buf.write i b }
  else .refused (.noSuchIndex i)

/-- `Reset` (spec/70_reset_and_hazards.md R130 to R132): the registers at their reset values, and the
buffer unspecified, so that no byte of it counts as written (log entry 7). The parameter stays, the
host's queue and replies are not the block's, and the draws go on (log entry 5). -/
def resetBlock (s : State) : State :=
  { s with
    buf := [], len := 0#16, crc := 0#16, err := 0#8, matchFlag := 0#1, level := 0#2 }

/-- One transaction (R20). -/
def perform (t : Transaction) (s : State) : Host.Outcome State Fault Refusal :=
  match t with
  | .regRead n => regRead n s
  | .regWrite n v => regWrite n v s
  | .bufRead i => bufRead i s
  | .bufWrite i v => bufWrite i v s
  | .reset => .next (resetBlock s)

/-- The oldest transaction the host has issued takes effect, wholly and before the next
(spec/20_memory.md R39). With none in hand the block is idle and keeps its state
(spec/60_exceptions.md R123, spec/70_reset_and_hazards.md R138; DEDUCED, log entry 2). -/
def takeTransaction (s : State) : Host.Outcome State Fault Refusal :=
  match s.pending with
  | [] => .next s
  | t :: rest => perform t { s with pending := rest }

/-- The host's write of a command code to `CMD` (spec/30_encoding.md R51, the line `CMD`). -/
def cmdWrite (op : Byte) : Transaction := .regWrite 0 ⟨8, op⟩

end Sys2Proof.Machine
end

