-- ==== Sys2Proof/Machine/HostSequence.lean ====
section
/-! DEFINITION. The notation for host sequences (spec/30_encoding.md R51 to R53): a program is a list
of transactions; the block executes none of the notation itself. The lines `WB`, `RB`, `RESET` are the
constructors `bufWrite`, `bufRead`, `reset` of `Transaction`. -/

namespace Sys2Proof.Machine

/-- `WB i, b` (R51). -/
def lineWB (i : Nat) (b : Byte) : Transaction := .bufWrite i ⟨8, b⟩

/-- `RB i` (R51). -/
def lineRB (i : Nat) : Transaction := .bufRead i

/-- `WR LEN, v` (R51). -/
def lineWRLen (v : Half) : Transaction := .regWrite Reg.len.number ⟨16, v⟩

/-- `WR reg, v` (R51), the value at a width of the host's choosing. -/
def lineWR (r : Reg) (v : Datum) : Transaction := .regWrite r.number v

/-- `RR reg` (R51). -/
def lineRR (r : Reg) : Transaction := .regRead r.number

/-- `CMD mnemonic` (R51). -/
def lineCMD (i : Instr) : Transaction := cmdWrite (encode i)

/-- The writes of `LOAD` from an index up (R53). -/
def loadBytes : Nat → List Byte → List Transaction
  | _, [] => []
  | i, b :: rest => lineWB i b :: loadBytes (i + 1) rest

/-- `LOAD b0 … b(n-1)` (R53). -/
def load (bs : List Byte) : List Transaction :=
  loadBytes 0 bs ++ [lineWRLen (BitVec.ofNat 16 bs.length)]

/-- `DUMP n` (R53). -/
def dump (n : Nat) : List Transaction := (List.range n).map lineRB

/-- `STATUS` (R53). -/
def statusReads : List Transaction := [lineRR .err, lineRR .flags, lineRR .level]

/-- `EXPECT reg, v` (R53): the read; the expected value is a note for the reader. -/
def expectReg (r : Reg) (_note : Datum) : List Transaction := [lineRR r]

/-- `EXPECTBUF b0 … b(n-1)` (R53): the reads; the bytes are a note for the reader. -/
def expectBuf (note : List Byte) : List Transaction := dump note.length

/-- The meaning of a program (R52): the transactions applied in order from a start state. The replies
of its reads are in the state reached. -/
def runSequence : List Transaction → State → Host.Outcome State Fault Refusal
  | [], s => .next s
  | t :: rest, s =>
    match perform t s with
    | .next s' => runSequence rest s'
    | .fault r => .fault r
    | .refused r => .refused r

end Sys2Proof.Machine
end

