-- ==== Sys2Proof/Machine/Step.lean ====
section
/-! DEFINITION. One step of the machine: one host transaction (spec/00_scope.md section 6,
spec/10_state.md R20). The block fetches nothing (R16): what stands for the place where the next
instruction is fetched is the head of the host's queue (log entry 1). -/

namespace Sys2Proof.Machine

/-- One step. -/
def step (s : State) : Host.Outcome State Fault Refusal := takeTransaction s

/-- The host's next transaction is the write of the command `w` to `CMD`. A command is one byte
(spec/30_encoding.md R45), so `nbits` is 8 for every row of the table. -/
def State.withFetchWord (s : State) (_nbits w : Nat) : State :=
  { s with pending := cmdWrite (BitVec.ofNat 8 w) :: s.pending }

end Sys2Proof.Machine
end

