-- ==== Sys2Proof/Safety.lean ====
section
/-! DEFINITION. The terms statements use: the invariant of the state (spec/10_state.md R23 with the
canonical form of the buffer), which transactions the block accepts (R20), and what "unchanged"
means. -/

namespace Sys2Proof.Machine

/-- The next state of an outcome, if there is one. -/
def nextOf : Host.Outcome State Fault Refusal → Option State
  | .next s => some s
  | .fault _ => none
  | .refused _ => none

/-- The outcome is a refusal. -/
def isRefused : Host.Outcome State Fault Refusal → Bool
  | .next _ => false
  | .fault _ => false
  | .refused _ => true

/-- The buffer is in its canonical form and inside `BUFCAP` bytes, and the status triple is one that
R23 allows: `ERR` 0x00 to 0x04; with `MATCH` set, no error and no level; with a level, no error and no
match. -/
def State.Inv (s : State) : Prop :=
  s.buf.wf ∧ s.buf.within s.config.bufcap ∧ s.err.toNat ≤ 4 ∧
    (s.matchFlag = 1#1 → s.err = 0#8 ∧ s.level = 0#2) ∧
    (s.level ≠ 0#2 → s.err = 0#8 ∧ s.matchFlag = 0#1)

/-- The clause of R23 on `LEN`: a level was left with the length of its cascade-tagged form or of its
UID. It holds until the host next writes `LEN`. -/
def State.LevelFitsLen (s : State) : Prop :=
  s.level ≠ 0#2 → s.lenNat = 4 * s.level.toNat ∨ s.lenNat = 3 * s.level.toNat + 1

/-- The transaction is a write of the register `LEN` (R12). -/
def Transaction.writesLen : Transaction → Bool
  | .regRead _ => false
  | .regWrite n _ => n == 1
  | .bufRead _ => false
  | .bufWrite _ _ => false
  | .reset => false

/-- The precondition of a transaction (the second column of R20), for a buffer of `cap` bytes. -/
def Transaction.accepted (cap : Nat) : Transaction → Bool
  | .regRead n => n ≤ 6
  | .regWrite n v =>
    match Reg.ofNumber n with
    | none => false
    | some r => v.width == r.width
  | .bufRead i => i < cap
  | .bufWrite i v => i < cap && v.width == 8
  | .reset => true

/-- No byte of the buffer differs: each reads as before, an unwritten one included. -/
def SameBytes (s t : State) : Prop := ∀ a, t.buf.read a = s.buf.read a

/-- The parameter, and what the host holds, are the same. -/
def SameHostSide (s t : State) : Prop :=
  t.config = s.config ∧ t.pending = s.pending ∧ t.replies = s.replies

/-- Every byte of `BUF[0..n-1]` has been written since the last reset
(spec/70_reset_and_hazards.md R132). -/
def State.allWritten (s : State) (n : Nat) : Prop := ∀ a, a < n → (s.buf.read a).isSome

/-- The status triple reports success with the given match and level (R113). -/
def State.succeeded (s : State) (m : BitVec 1) (l : BitVec 2) : Prop :=
  s.err = 0x00#8 ∧ s.matchFlag = m ∧ s.level = l

/-- The state with the status triple of an error and nothing else different (R112). -/
def State.failedWith (s : State) (code : Byte) : State :=
  { s with err := code, matchFlag := 0#1, level := 0#2 }

end Sys2Proof.Machine
end

