-- ==== Sys2Proof/Certificates/Slice0/Obligations.lean ====
section
/-! DEFINITION. The statements for the provers, each the formal text of a rule of spec/ or of what
several rules say together. A byte's reading is `Memory.read` (none: not written since reset,
spec/70_reset_and_hazards.md R132); what a command's read of it gives is `State.byteAt`. -/

open Sys2Proof Sys2Proof.Machine

/-! ### Encoding (spec/30_encoding.md) -/

/-- R47: the opcode map, each row's boundary codes, and the table's partition of the 256 codes; the
reserved rows behave alike. -/
def Obligations.OpcodeMapSelectsTheCommands : Prop :=
  (decode 0x00#8 = .nop ∧ decode 0x01#8 = .crcA ∧ decode 0x02#8 = .crcB ∧
    decode 0x03#8 = .appendCrcA ∧ decode 0x04#8 = .appendCrcB ∧ decode 0x05#8 = .checkCrcA ∧
    decode 0x06#8 = .checkCrcB ∧ decode 0x07#8 = .cascadeUid ∧ decode 0x08#8 = .uncascadeUid) ∧
  (decode 0x09#8 = .reserved09 ∧
    decode 0x0A#8 = .reserved0A0B 0x0A#8 ∧ decode 0x0B#8 = .reserved0A0B 0x0B#8 ∧
    decode 0x0C#8 = .reserved0C0F 0x0C#8 ∧ decode 0x0F#8 = .reserved0C0F 0x0F#8 ∧
    decode 0x10#8 = .reserved101F 0x10#8 ∧ decode 0x1F#8 = .reserved101F 0x1F#8 ∧
    decode 0x20#8 = .reserved203F 0x20#8 ∧ decode 0x3F#8 = .reserved203F 0x3F#8 ∧
    decode 0x40#8 = .reserved407F 0x40#8 ∧ decode 0x7F#8 = .reserved407F 0x7F#8 ∧
    decode 0x80#8 = .reserved80FF 0x80#8 ∧ decode 0xFF#8 = .reserved80FF 0xFF#8) ∧
  (∀ op : Byte, (decode op).isReserved = true ↔ 0x09#8 ≤ op) ∧
  (∀ op : Byte, (opcodeTable.filter fun r => r.fits op).length = 1) ∧
  (∀ (op : Byte) (s : State), 0x09#8 ≤ op → exec (decode op) s = exec .reserved09 s)

/-- Decode and encode agree, both ways: every well-formed command is what its code decodes to, and
every byte decodes to a well-formed command whose code it is (R45, R47). -/
def Obligations.DecodeAndEncodeAgree : Prop :=
  (∀ i : Instr, i.wf = true → decode (encode i) = i) ∧
  (∀ op : Byte, (decode op).wf = true ∧ encode (decode op) = op) ∧
  (∀ op : Byte, decodeTableWord 8 op.toNat = some (decode op))

/-! ### The step (spec/10_state.md R20, spec/20_memory.md R39) -/

/-- When the host's next transaction writes a well-formed command's code to `CMD`, the step is that
command's effect, with the transaction taken from the queue. The queue is the model's (log entry 1). -/
def Obligations.StepRunsTheWrittenCommand : Prop :=
  (∀ (s : State) (i : Instr) (rest : List Transaction), i.wf = true →
    s.pending = .regWrite 0 ⟨8, encode i⟩ :: rest → step s = exec i { s with pending := rest }) ∧
  (∀ (s : State) (op : Byte), step (s.withFetchWord 8 op.toNat) = exec (decode op) s)

/-- A step takes the oldest transaction and no other, adds a reply exactly for a read, keeps the
earlier replies, and never changes the parameter (R39, R20). The queue and the list of replies are the
model's (log entry 1). -/
def Obligations.StepTakesTheOldestTransaction : Prop :=
  ∀ (s s' : State) (t : Transaction) (rest : List Transaction),
    s.pending = t :: rest → step s = .next s' →
      s'.pending = rest ∧ s'.config = s.config ∧
      ∃ more : List Datum, s'.replies = s.replies ++ more ∧
        more.length = (match t with
          | .regRead _ => 1
          | .regWrite _ _ => 0
          | .bufRead _ => 1
          | .bufWrite _ _ => 0
          | .reset => 0)

/-- With no transaction in hand the block keeps its state (R123; the model's choice of a step that
stands still: log entry 2). -/
def Obligations.IdleBlockKeepsItsState : Prop :=
  ∀ s : State, s.pending = [] → step s = .next s

/-! ### `NOP` and the reserved codes -/

/-- R105: `NOP` changes nothing, in every state, and so cannot fail. -/
def Obligations.NopChangesNothing : Prop :=
  encode .nop = 0x00#8 ∧ ∀ s : State, exec .nop s = .next s

/-- R48: a reserved code reports `Unsupported` whatever `LEN` holds, and changes nothing but the
status triple. -/
def Obligations.ReservedCodesReportUnsupported : Prop :=
  ∀ s : State,
    exec .reserved09 s = .next (s.failedWith 0x04#8) ∧
    (∀ c, exec (.reserved0A0B c) s = .next (s.failedWith 0x04#8)) ∧
    (∀ c, exec (.reserved0C0F c) s = .next (s.failedWith 0x04#8)) ∧
    (∀ c, exec (.reserved101F c) s = .next (s.failedWith 0x04#8)) ∧
    (∀ c, exec (.reserved203F c) s = .next (s.failedWith 0x04#8)) ∧
    (∀ c, exec (.reserved407F c) s = .next (s.failedWith 0x04#8)) ∧
    (∀ c, exec (.reserved80FF c) s = .next (s.failedWith 0x04#8)) ∧
    (∀ op : Byte, 0x09#8 ≤ op → perform (.regWrite 0 ⟨8, op⟩) s =
      .next { s with err := 0x04#8, matchFlag := 0#1, level := 0#2 })

/-! ### The CRC functions (spec/40_crc.md) -/

/-- R61: the update is eight turns of the loop on `c xor zext(b)`; with the rule's examples. -/
def Obligations.CrcUpdateIsEightTurns : Prop :=
  (∀ (c : Half) (b : Byte), crc16Update c b =
    (fun x : Half => if x.getLsbD 0 then (x >>> 1) ^^^ 0x8408#16 else x >>> 1)^[8]
      (c ^^^ b.setWidth 16)) ∧
  crc16Update 0x6363#16 0x00#8 = 0x51FE#16 ∧ crc16Update 0xFFFF#16 0x00#8 = 0x0F87#16 ∧
  crc16Update 0x0000#16 0x01#8 = 0x1189#16 ∧ crc16Update 0x0000#16 0x80#8 = 0x8408#16 ∧
  crc16Update 0x0000#16 0x00#8 = 0x0000#16 ∧
  (List.range 8).map (fun k => crc16Steps (k + 1) 0x6363#16) =
    [0xB5B9#16, 0xDED4#16, 0x6F6A#16, 0x37B5#16, 0x9FD2#16, 0x4FE9#16, 0xA3FC#16, 0x51FE#16]

/-- R63 and R64: the two CRCs of a sequence, folded lowest index first from their initial values,
with the final complement for CRC_B only; with the rules' examples. -/
def Obligations.CrcsOfASequence : Prop :=
  (∀ (bs : List Byte) (b : Byte),
    crcA [] = 0x6363#16 ∧ crcA bs = crc16Raw 0x6363#16 bs ∧
    crcA (bs ++ [b]) = crc16Update (crcA bs) b ∧
    crcB bs = crc16Raw 0xFFFF#16 bs ^^^ 0xFFFF#16 ∧
    crcB (bs ++ [b]) = ~~~ crc16Update (~~~ crcB bs) b) ∧
  crcA [0x00#8, 0x00#8] = 0x1EA0#16 ∧ crcA [0x12#8, 0x34#8] = 0xCF26#16 ∧
  crcA [0x31#8, 0x32#8, 0x33#8, 0x34#8, 0x35#8, 0x36#8, 0x37#8, 0x38#8, 0x39#8] = 0xBF05#16 ∧
  crcB [] = 0x0000#16 ∧ crcB [0x00#8, 0x00#8, 0x00#8] = 0xC6CC#16 ∧
  crcB [0x0F#8, 0xAA#8, 0xFF#8] = 0xD1FC#16 ∧
  crcB [0x31#8, 0x32#8, 0x33#8, 0x34#8, 0x35#8, 0x36#8, 0x37#8, 0x38#8, 0x39#8] = 0x906E#16

/-- The byte-at-a-time form of 40_crc.md section 1 gives what R61's loop gives, for every register and
every byte. -/
def Obligations.BytewiseUpdateAgrees : Prop :=
  ∀ (c : Half) (b : Byte), crc16UpdateBytewise c b = crc16Update c b

/-- One turn of the loop is linear over exclusive or, and a bijection (the ground of the detection of
single-bit errors in 40_crc.md section 3). -/
def Obligations.CrcTurnIsALinearBijection : Prop :=
  (∀ a b : Half, crc16Step (a ^^^ b) = crc16Step a ^^^ crc16Step b) ∧
  Function.Bijective crc16Step

/-- The residues of 40_crc.md section 3, for every byte sequence. -/
def Obligations.CrcResidues : Prop :=
  ∀ bs : List Byte,
    crcA (bs ++ le16 (crcA bs)) = 0x0000#16 ∧
    crc16Raw 0xFFFF#16 (bs ++ le16 (crcB bs)) = 0xF0B8#16 ∧
    crcB (bs ++ le16 (crcB bs)) = 0x0F47#16

/-- R34: `le16` and `from_le16` are inverse, the low byte first. -/
def Obligations.LittleEndianRoundTrip : Prop :=
  (∀ v : Half, le16 v = [v.extractLsb' 0 8, v.extractLsb' 8 8] ∧
    fromLe16 (v.extractLsb' 0 8) (v.extractLsb' 8 8) = v) ∧
  (∀ b0 b1 : Byte, le16 (fromLe16 b0 b1) = [b0, b1])

/-! ### The CRC commands (spec/40_crc.md R66 to R71) -/

/-- R66: `CRC_A`. -/
def Obligations.CrcAComputesThePayloadCrc : Prop :=
  encode .crcA = 0x01#8 ∧
  (∀ s : State, s.lenNat ≤ s.config.bufcap →
    ∃ t, exec .crcA s = .next t ∧ t.crc = crcA s.payload ∧ t.succeeded 0#1 0#2 ∧
      SameBytes s t ∧ t.len = s.len ∧ SameHostSide s t ∧ (s.lenNat = 0 → t.crc = 0x6363#16)) ∧
  (∀ (s : State) (m : Memory), s.lenNat ≤ s.config.bufcap →
    (∀ a, a < s.lenNat → m.read a = s.buf.read a) →
    ∃ t u, exec .crcA s = .next t ∧ exec .crcA { s with buf := m } = .next u ∧ u.crc = t.crc) ∧
  (∀ s : State, s.config.bufcap < s.lenNat → exec .crcA s = .next (s.failedWith 0x02#8)) ∧
  crcA [0x50#8, 0x00#8] = 0xCD57#16

/-- R67: `CRC_B`. -/
def Obligations.CrcBComputesThePayloadCrc : Prop :=
  encode .crcB = 0x02#8 ∧
  (∀ s : State, s.lenNat ≤ s.config.bufcap →
    ∃ t, exec .crcB s = .next t ∧ t.crc = crcB s.payload ∧ t.succeeded 0#1 0#2 ∧
      SameBytes s t ∧ t.len = s.len ∧ SameHostSide s t ∧ (s.lenNat = 0 → t.crc = 0x0000#16)) ∧
  (∀ s : State, s.config.bufcap < s.lenNat → exec .crcB s = .next (s.failedWith 0x02#8)) ∧
  crcB [0x05#8, 0x00#8, 0x00#8] = 0xFF71#16

/-- R68: `APPEND_CRC_A`: the two bytes stored are `BUF[LEN]` and `BUF[LEN+1]`, every other byte is as
before. The clause on a second run ("for CRC_A is always 00 00") is for a payload that has been
written: an unwritten byte reads afresh each time (R132). -/
def Obligations.AppendCrcAStoresTheCrc : Prop :=
  encode .appendCrcA = 0x03#8 ∧
  (∀ s : State, s.lenNat + 2 ≤ s.config.bufcap →
    ∃ t, exec .appendCrcA s = .next t ∧ t.crc = crcA s.payload ∧
      t.buf.read s.lenNat = some ((crcA s.payload).extractLsb' 0 8) ∧
      t.buf.read (s.lenNat + 1) = some ((crcA s.payload).extractLsb' 8 8) ∧
      (∀ a, a ≠ s.lenNat → a ≠ s.lenNat + 1 → t.buf.read a = s.buf.read a) ∧
      t.lenNat = s.lenNat + 2 ∧ t.succeeded 0#1 0#2 ∧ SameHostSide s t ∧
      (s.lenNat = 0 → t.buf.read 0 = some 0x63#8 ∧ t.buf.read 1 = some 0x63#8)) ∧
  (∀ s : State, s.lenNat + 4 ≤ s.config.bufcap → s.allWritten s.lenNat →
    ∃ t u, exec .appendCrcA s = .next t ∧ exec .appendCrcA t = .next u ∧
      u.buf.read (s.lenNat + 2) = some 0x00#8 ∧ u.buf.read (s.lenNat + 3) = some 0x00#8 ∧
      u.crc = 0x0000#16) ∧
  (∀ s : State, s.lenNat ≤ s.config.bufcap → s.config.bufcap < s.lenNat + 2 →
    exec .appendCrcA s = .next (s.failedWith 0x01#8)) ∧
  (∀ s : State, s.config.bufcap < s.lenNat → exec .appendCrcA s = .next (s.failedWith 0x02#8)) ∧
  crcA [0x50#8, 0x00#8] = 0xCD57#16

/-- R69: `APPEND_CRC_B`, as R68 with the complemented CRC; the second run appends `47 0F`, for a
payload that has been written (R132). -/
def Obligations.AppendCrcBStoresTheCrc : Prop :=
  encode .appendCrcB = 0x04#8 ∧
  (∀ s : State, s.lenNat + 2 ≤ s.config.bufcap →
    ∃ t, exec .appendCrcB s = .next t ∧ t.crc = crcB s.payload ∧
      t.buf.read s.lenNat = some ((crcB s.payload).extractLsb' 0 8) ∧
      t.buf.read (s.lenNat + 1) = some ((crcB s.payload).extractLsb' 8 8) ∧
      (∀ a, a ≠ s.lenNat → a ≠ s.lenNat + 1 → t.buf.read a = s.buf.read a) ∧
      t.lenNat = s.lenNat + 2 ∧ t.succeeded 0#1 0#2 ∧ SameHostSide s t ∧
      (s.lenNat = 0 → t.buf.read 0 = some 0x00#8 ∧ t.buf.read 1 = some 0x00#8)) ∧
  (∀ s : State, s.lenNat + 4 ≤ s.config.bufcap → s.allWritten s.lenNat →
    ∃ t u, exec .appendCrcB s = .next t ∧ exec .appendCrcB t = .next u ∧
      u.buf.read (s.lenNat + 2) = some 0x47#8 ∧ u.buf.read (s.lenNat + 3) = some 0x0F#8 ∧
      u.crc = 0x0F47#16) ∧
  (∀ s : State, s.lenNat ≤ s.config.bufcap → s.config.bufcap < s.lenNat + 2 →
    exec .appendCrcB s = .next (s.failedWith 0x01#8)) ∧
  (∀ s : State, s.config.bufcap < s.lenNat → exec .appendCrcB s = .next (s.failedWith 0x02#8)) ∧
  crcB [0x05#8, 0x00#8, 0x00#8] = 0xFF71#16

/-- R70: `CHECK_CRC_A`. A wrong CRC is not an error. -/
def Obligations.CheckCrcAValidatesTheFrame : Prop :=
  encode .checkCrcA = 0x05#8 ∧
  (∀ s : State, 2 ≤ s.lenNat → s.lenNat ≤ s.config.bufcap →
    ∃ t, exec .checkCrcA s = .next t ∧ t.crc = crcA (s.bytes (s.lenNat - 2)) ∧
      t.succeeded
        (if crcA (s.bytes (s.lenNat - 2)) =
            fromLe16 (s.byteAt (s.lenNat - 2)) (s.byteAt (s.lenNat - 1)) then 1#1 else 0#1) 0#2 ∧
      SameBytes s t ∧ t.len = s.len ∧ SameHostSide s t ∧
      (s.lenNat = 2 → (t.matchFlag = 1#1 ↔ s.byteAt 0 = 0x63#8 ∧ s.byteAt 1 = 0x63#8))) ∧
  (∀ s : State, s.lenNat < 2 → exec .checkCrcA s = .next (s.failedWith 0x03#8)) ∧
  (∀ s : State, s.config.bufcap < s.lenNat → exec .checkCrcA s = .next (s.failedWith 0x02#8)) ∧
  crcA [0x50#8, 0x00#8] = fromLe16 0x57#8 0xCD#8 ∧ crcA [0x50#8, 0x01#8] = 0xDCDE#16

/-- R71: `CHECK_CRC_B`. -/
def Obligations.CheckCrcBValidatesTheFrame : Prop :=
  encode .checkCrcB = 0x06#8 ∧
  (∀ s : State, 2 ≤ s.lenNat → s.lenNat ≤ s.config.bufcap →
    ∃ t, exec .checkCrcB s = .next t ∧ t.crc = crcB (s.bytes (s.lenNat - 2)) ∧
      t.succeeded
        (if crcB (s.bytes (s.lenNat - 2)) =
            fromLe16 (s.byteAt (s.lenNat - 2)) (s.byteAt (s.lenNat - 1)) then 1#1 else 0#1) 0#2 ∧
      SameBytes s t ∧ t.len = s.len ∧ SameHostSide s t ∧
      (s.lenNat = 2 → (t.matchFlag = 1#1 ↔ s.byteAt 0 = 0x00#8 ∧ s.byteAt 1 = 0x00#8))) ∧
  (∀ s : State, s.lenNat < 2 → exec .checkCrcB s = .next (s.failedWith 0x03#8)) ∧
  (∀ s : State, s.config.bufcap < s.lenNat → exec .checkCrcB s = .next (s.failedWith 0x02#8)) ∧
  crcB [0x05#8, 0x00#8, 0x00#8] = fromLe16 0x71#8 0xFF#8 ∧
  crcB [0x05#8, 0x00#8, 0x01#8] = 0xEEF8#16

/-- R76: the empty payload is valid. -/
def Obligations.EmptyPayloadIsValid : Prop :=
  ∀ s : State, s.lenNat = 0 →
    (∃ t, exec .crcA s = .next t ∧ t.crc = 0x6363#16 ∧ t.err = 0x00#8) ∧
    (∃ t, exec .crcB s = .next t ∧ t.crc = 0x0000#16 ∧ t.err = 0x00#8) ∧
    (∃ t, exec .appendCrcA s = .next t ∧ t.err = 0x00#8 ∧
      t.buf.read 0 = some 0x63#8 ∧ t.buf.read 1 = some 0x63#8) ∧
    (∃ t, exec .appendCrcB s = .next t ∧ t.err = 0x00#8 ∧
      t.buf.read 0 = some 0x00#8 ∧ t.buf.read 1 = some 0x00#8)

/-! ### The laws of the CRC family (spec/40_crc.md section 3) -/

/-- The round trip: append, then check at once, matches; and a check of the other kind matches only
when the two CRCs agree. For a payload that has been written, because each read of an unwritten byte
is a draw of its own (R132; log entry 4). -/
def Obligations.AppendThenCheckMatches : Prop :=
  ∀ s : State, s.lenNat + 2 ≤ s.config.bufcap → s.allWritten s.lenNat →
    (∃ t u v, exec .appendCrcA s = .next t ∧ exec .checkCrcA t = .next u ∧
      exec .checkCrcB t = .next v ∧ u.succeeded 1#1 0#2 ∧ u.crc = t.crc ∧ SameBytes t u ∧
      (v.matchFlag = 1#1 ↔ crcA s.payload = crcB s.payload)) ∧
    (∃ t u, exec .appendCrcB s = .next t ∧ exec .checkCrcB t = .next u ∧
      u.succeeded 1#1 0#2 ∧ u.crc = t.crc ∧ SameBytes t u)

/-- Single-bit errors: a good frame with one bit inverted, in the payload or in the CRC bytes, does
not match, and that is not an error. -/
def Obligations.SingleBitErrorIsDetected : Prop :=
  ∀ (s : State) (j k : Nat) (b : Byte),
    2 ≤ s.lenNat → s.lenNat ≤ s.config.bufcap → s.allWritten s.lenNat →
    j < s.lenNat → s.buf.read j = some b → k < 8 →
      (s.frameCrc = crcA s.framePayload →
        ∃ t u, exec .checkCrcA s = .next t ∧ t.succeeded 1#1 0#2 ∧
          exec .checkCrcA { s with buf := s.buf.write j (b ^^^ (1#8 <<< k)) } = .next u ∧
          u.succeeded 0#1 0#2) ∧
      (s.frameCrc = crcB s.framePayload →
        ∃ t u, exec .checkCrcB s = .next t ∧ t.succeeded 1#1 0#2 ∧
          exec .checkCrcB { s with buf := s.buf.write j (b ^^^ (1#8 <<< k)) } = .next u ∧
          u.succeeded 0#1 0#2)

/-- The residue gives the same verdict as the check: `CRC_A` over a whole frame leaves 0x0000, and
`CRC_B` leaves 0x0F47, exactly when the check of that kind matches. -/
def Obligations.ResidueVerdictAgreesWithCheck : Prop :=
  ∀ s : State, 2 ≤ s.lenNat → s.lenNat ≤ s.config.bufcap → s.allWritten s.lenNat →
    (∃ t u, exec .checkCrcA s = .next t ∧ exec .crcA s = .next u ∧
      (t.matchFlag = 1#1 ↔ u.crc = 0x0000#16)) ∧
    (∃ t u, exec .checkCrcB s = .next t ∧ exec .crcB s = .next u ∧
      (t.matchFlag = 1#1 ↔ u.crc = 0x0F47#16))

/-! ### The cascade-UID family (spec/41_cascade_uid.md) -/

/-- R87: the cascade-tagged form of 4, 7 and 10 bytes, byte by byte, and of no other length; its
length is four times the level (R85). -/
def Obligations.CascadeFormLayout : Prop :=
  (∀ u0 u1 u2 u3 : Byte, cascade [u0, u1, u2, u3] = some [u0, u1, u2, u3]) ∧
  (∀ u0 u1 u2 u3 u4 u5 u6 : Byte, cascade [u0, u1, u2, u3, u4, u5, u6] =
    some [0x88#8, u0, u1, u2, u3, u4, u5, u6]) ∧
  (∀ u0 u1 u2 u3 u4 u5 u6 u7 u8 u9 : Byte, cascade [u0, u1, u2, u3, u4, u5, u6, u7, u8, u9] =
    some [0x88#8, u0, u1, u2, 0x88#8, u3, u4, u5, u6, u7, u8, u9]) ∧
  (∀ u : List Byte, cascade u = none ↔ levelOfUidLen u.length = none) ∧
  (∀ (u f : List Byte) (l : Nat), cascade u = some f → levelOfUidLen u.length = some l →
    f.length = 4 * l) ∧
  (∀ n l : Nat, levelOfUidLen n = some l ↔
    (n = 4 ∧ l = 1) ∨ (n = 7 ∧ l = 2) ∨ (n = 10 ∧ l = 3))

/-- R88: the inverse, defined in exactly three cases; a 4-byte sequence is taken as it stands. -/
def Obligations.UncascadeFormLayout : Prop :=
  (∀ s0 s1 s2 s3 : Byte, uncascade [s0, s1, s2, s3] = some [s0, s1, s2, s3]) ∧
  (∀ s0 s1 s2 s3 s4 s5 s6 s7 : Byte, uncascade [s0, s1, s2, s3, s4, s5, s6, s7] =
    if s0 = 0x88#8 then some [s1, s2, s3, s4, s5, s6, s7] else none) ∧
  (∀ s0 s1 s2 s3 s4 s5 s6 s7 s8 s9 s10 s11 : Byte,
    uncascade [s0, s1, s2, s3, s4, s5, s6, s7, s8, s9, s10, s11] =
    if s0 = 0x88#8 ∧ s4 = 0x88#8 then some [s1, s2, s3, s5, s6, s7, s8, s9, s10, s11] else none) ∧
  (∀ f : List Byte, f.length ≠ 4 → f.length ≠ 8 → f.length ≠ 12 → uncascade f = none) ∧
  (∀ n l : Nat, levelOfFormLen n = some l ↔
    (n = 4 ∧ l = 1) ∨ (n = 8 ∧ l = 2) ∨ (n = 12 ∧ l = 3))

/-- R90: `CASCADE_UID`, length by length: what each byte holds afterwards (a copy of an unwritten byte
is unwritten, R132), the length, the level; and the error. -/
def Obligations.CascadeUidSerialises : Prop :=
  encode .cascadeUid = 0x07#8 ∧
  (∀ s : State, s.lenNat = 4 → ∃ t, exec .cascadeUid s = .next t ∧
    SameBytes s t ∧ t.lenNat = 4 ∧ t.succeeded 0#1 1#2 ∧ t.crc = s.crc ∧ SameHostSide s t) ∧
  (∀ s : State, s.lenNat = 7 → ∃ t, exec .cascadeUid s = .next t ∧
    t.buf.read 0 = some 0x88#8 ∧ (∀ j, j < 7 → t.buf.read (1 + j) = s.buf.read j) ∧
    (∀ a, 8 ≤ a → t.buf.read a = s.buf.read a) ∧
    t.lenNat = 8 ∧ t.succeeded 0#1 2#2 ∧ t.crc = s.crc ∧ SameHostSide s t) ∧
  (∀ s : State, s.lenNat = 10 → ∃ t, exec .cascadeUid s = .next t ∧
    t.buf.read 0 = some 0x88#8 ∧ (∀ j, j < 3 → t.buf.read (1 + j) = s.buf.read j) ∧
    t.buf.read 4 = some 0x88#8 ∧ (∀ j, j < 7 → t.buf.read (5 + j) = s.buf.read (3 + j)) ∧
    (∀ a, 12 ≤ a → t.buf.read a = s.buf.read a) ∧
    t.lenNat = 12 ∧ t.succeeded 0#1 3#2 ∧ t.crc = s.crc ∧ SameHostSide s t) ∧
  (∀ s : State, s.lenNat ≠ 4 → s.lenNat ≠ 7 → s.lenNat ≠ 10 →
    exec .cascadeUid s = .next (s.failedWith 0x02#8))

/-- R91: `UNCASCADE_UID`, length by length; the tag bytes as the command reads them; the errors, which
leave all but the status triple (and the model's counter of draws) alone. -/
def Obligations.UncascadeUidDeserialises : Prop :=
  encode .uncascadeUid = 0x08#8 ∧
  (∀ s : State, s.lenNat = 4 → ∃ t, exec .uncascadeUid s = .next t ∧
    SameBytes s t ∧ t.lenNat = 4 ∧ t.succeeded 0#1 1#2 ∧ t.crc = s.crc ∧ SameHostSide s t) ∧
  (∀ s : State, s.lenNat = 8 → s.byteAt 0 = 0x88#8 → ∃ t, exec .uncascadeUid s = .next t ∧
    (∀ j, j < 7 → t.buf.read j = s.buf.read (1 + j)) ∧
    (∀ a, 7 ≤ a → t.buf.read a = s.buf.read a) ∧
    t.lenNat = 7 ∧ t.succeeded 0#1 2#2 ∧ t.crc = s.crc ∧ SameHostSide s t) ∧
  (∀ s : State, s.lenNat = 12 → s.byteAt 0 = 0x88#8 → s.byteAt 4 = 0x88#8 →
    ∃ t, exec .uncascadeUid s = .next t ∧
    (∀ j, j < 3 → t.buf.read j = s.buf.read (1 + j)) ∧
    (∀ j, j < 7 → t.buf.read (3 + j) = s.buf.read (5 + j)) ∧
    (∀ a, 10 ≤ a → t.buf.read a = s.buf.read a) ∧
    t.lenNat = 10 ∧ t.succeeded 0#1 3#2 ∧ t.crc = s.crc ∧ SameHostSide s t) ∧
  (∀ s : State, s.config.bufcap < s.lenNat → exec .uncascadeUid s = .next (s.failedWith 0x02#8)) ∧
  (∀ s : State, s.lenNat ≤ s.config.bufcap → s.lenNat ≠ 4 → s.lenNat ≠ 8 → s.lenNat ≠ 12 →
    exec .uncascadeUid s = .next (s.failedWith 0x03#8)) ∧
  (∀ s : State, s.lenNat = 8 ∨ s.lenNat = 12 → s.byteAt 0 ≠ 0x88#8 →
    ∃ d, exec .uncascadeUid s = .next { s.failedWith 0x03#8 with draws := d }) ∧
  (∀ s : State, s.lenNat = 12 → s.byteAt 4 ≠ 0x88#8 →
    ∃ d, exec .uncascadeUid s = .next { s.failedWith 0x03#8 with draws := d })

/-- Serialise, then deserialise (41_cascade_uid.md section 3): the UID, its length and its level come
back, as functions and on the block; the bytes above the UID keep what the first command left. -/
def Obligations.CascadeThenUncascadeRestores : Prop :=
  (∀ u f : List Byte, cascade u = some f → uncascade f = some u) ∧
  (∀ s : State, s.lenNat = 4 ∨ s.lenNat = 7 ∨ s.lenNat = 10 →
    ∃ t u, exec .cascadeUid s = .next t ∧ exec .uncascadeUid t = .next u ∧
      u.err = 0x00#8 ∧ u.len = s.len ∧ (∀ a, a < s.lenNat → u.buf.read a = s.buf.read a) ∧
      levelOfUidLen s.lenNat = some u.level.toNat ∧
      (s.lenNat = 7 → u.buf.read 7 = s.buf.read 6) ∧
      (s.lenNat = 10 → u.buf.read 10 = s.buf.read 8 ∧ u.buf.read 11 = s.buf.read 9))

/-- Deserialise, then serialise (41_cascade_uid.md section 3): the form comes back, as functions and on
the block, for every byte of it that had been written (an unwritten byte has no value to restore,
R132). -/
def Obligations.UncascadeThenCascadeRestores : Prop :=
  (∀ f u : List Byte, uncascade f = some u → cascade u = some f) ∧
  (∀ s t : State, exec .uncascadeUid s = .next t → t.err = 0x00#8 →
    ∃ u, exec .cascadeUid t = .next u ∧ u.err = 0x00#8 ∧ u.level = t.level ∧ u.len = s.len ∧
      ∀ (a : Nat) (b : Byte), a < s.lenNat → s.buf.read a = some b → u.buf.read a = some b)

/-- `CASCADE_UID` does not look at the values of the bytes: with any other buffer it ends with the
same length, level, error and CRC (41_cascade_uid.md section 1). -/
def Obligations.CascadeIgnoresByteValues : Prop :=
  ∀ (s : State) (m : Memory), ∃ t u,
    exec .cascadeUid s = .next t ∧ exec .cascadeUid { s with buf := m } = .next u ∧
    u.len = t.len ∧ u.level = t.level ∧ u.err = t.err ∧ u.matchFlag = t.matchFlag ∧ u.crc = t.crc

/-! ### Errors and the status triple (spec/60_exceptions.md) -/

/-- R115: every command but `NOP` and the reserved codes turns a length above `BUFCAP` away first. -/
def Obligations.OversizedLengthIsInvalidArgument : Prop :=
  ∀ (i : Instr) (s : State), i ≠ .nop → i.isReserved = false → s.config.bufcap < s.lenNat →
    exec i s = .next { s with err := 0x02#8, matchFlag := 0#1, level := 0#2 }

/-- R116: the one error each command reports, the first whose condition holds. -/
def Obligations.FirstErrorInOrderIsReported : Prop :=
  ∀ s : State,
    (∀ i : Instr, i.isReserved = true → ∃ t, exec i s = .next t ∧ t.err = 0x04#8) ∧
    (∀ i : Instr, i ≠ .nop → i.isReserved = false → s.config.bufcap < s.lenNat →
      ∃ t, exec i s = .next t ∧ t.err = 0x02#8) ∧
    (s.lenNat ≤ s.config.bufcap →
      (∃ t, exec .crcA s = .next t ∧ t.err = 0x00#8) ∧
      (∃ t, exec .crcB s = .next t ∧ t.err = 0x00#8) ∧
      (∃ t, exec .appendCrcA s = .next t ∧
        t.err = if s.config.bufcap < s.lenNat + 2 then 0x01#8 else 0x00#8) ∧
      (∃ t, exec .appendCrcB s = .next t ∧
        t.err = if s.config.bufcap < s.lenNat + 2 then 0x01#8 else 0x00#8) ∧
      (∃ t, exec .checkCrcA s = .next t ∧ t.err = if s.lenNat < 2 then 0x03#8 else 0x00#8) ∧
      (∃ t, exec .checkCrcB s = .next t ∧ t.err = if s.lenNat < 2 then 0x03#8 else 0x00#8) ∧
      (∃ t, exec .cascadeUid s = .next t ∧
        t.err = if s.lenNat = 4 ∨ s.lenNat = 7 ∨ s.lenNat = 10 then 0x00#8 else 0x02#8) ∧
      (∃ t, exec .uncascadeUid s = .next t ∧
        t.err =
          if s.lenNat ≠ 4 ∧ s.lenNat ≠ 8 ∧ s.lenNat ≠ 12 then 0x03#8
          else if 8 ≤ s.lenNat ∧ s.byteAt 0 ≠ 0x88#8 then 0x03#8
          else if s.lenNat = 12 ∧ s.byteAt 4 ≠ 0x88#8 then 0x03#8
          else 0x00#8))

/-- R112: a command that ends in an error reports one of the four codes, clears `MATCH` and `LEVEL`,
and changes nothing else of the block (R114: no partial result). -/
def Obligations.ErrorsLeaveNoPartialResult : Prop :=
  ∀ (i : Instr) (s t : State), i ≠ .nop → exec i s = .next t → t.err ≠ 0x00#8 →
    (t.err = 0x01#8 ∨ t.err = 0x02#8 ∨ t.err = 0x03#8 ∨ t.err = 0x04#8) ∧
    ∃ d, t = { s with err := t.err, matchFlag := 0#1, level := 0#2, draws := d }

/-- R111: nothing of an earlier status survives a command other than `NOP`, and nothing but a command
or a reset changes the triple. (R111's "all host transactions other than a CMD write" is read with
R131: `Reset` puts the triple at its reset values.) -/
def Obligations.StatusTripleIsRewrittenWhole : Prop :=
  (∀ (i : Instr) (s : State) (e : Byte) (m : BitVec 1) (l : BitVec 2), i ≠ .nop →
    exec i { s with err := e, matchFlag := m, level := l } = exec i s) ∧
  (∀ (tr : Transaction) (s t : State), perform tr s = .next t → tr ≠ .reset →
    (∀ v, tr ≠ .regWrite 0 v) →
    t.err = s.err ∧ t.matchFlag = s.matchFlag ∧ t.level = s.level)

/-- R17: `MATCH` after a command other than `NOP` is 1 exactly after a check that completes and finds
the trailing bytes equal to the CRC; no command reads it; it is bit 0 of `FLAGS`; it is 0 at reset. -/
def Obligations.MatchIsSetExactlyByAGoodCheck : Prop :=
  (∀ (i : Instr) (s t : State), i ≠ .nop → exec i s = .next t →
    (t.matchFlag = 1#1 ↔
      2 ≤ s.lenNat ∧ s.lenNat ≤ s.config.bufcap ∧
      ((i = .checkCrcA ∧ crcA s.framePayload = s.frameCrc) ∨
        (i = .checkCrcB ∧ crcB s.framePayload = s.frameCrc)))) ∧
  (∀ (i : Instr) (s : State) (m : BitVec 1), i ≠ .nop →
    exec i { s with matchFlag := m } = exec i s) ∧
  (∀ s : State, s.regValue .flags = ⟨8, s.matchFlag.setWidth 8⟩) ∧
  State.reset.matchFlag = 0#1

/-- `LEVEL` after a command other than `NOP` is not 0 only after a successful cascade command, and then
is the level of the UID's length and has left `LEN` at 4 times the level or at the UID's length (R113,
R18, R85). -/
def Obligations.LevelIsSetOnlyByCascadeCommands : Prop :=
  ∀ (i : Instr) (s t : State), i ≠ .nop → exec i s = .next t → t.level ≠ 0#2 →
    t.err = 0x00#8 ∧ t.matchFlag = 0#1 ∧
    ((i = .cascadeUid ∧ levelOfUidLen s.lenNat = some t.level.toNat ∧
        t.lenNat = 4 * t.level.toNat) ∨
      (i = .uncascadeUid ∧ levelOfFormLen s.lenNat = some t.level.toNat ∧
        levelOfUidLen t.lenNat = some t.level.toNat))

/-- What writes `CRC`: a successful command of the CRC family, with the CRC of the payload (of the
frame's payload part for a check); every other command and outcome leaves it (R13). -/
def Obligations.CrcRegisterIsWrittenOnlyBySuccess : Prop :=
  ∀ (i : Instr) (s t : State), exec i s = .next t →
    t.crc = s.crc ∨
    (t.err = 0x00#8 ∧
      (((i = .crcA ∨ i = .appendCrcA) ∧ t.crc = crcA s.payload) ∨
        ((i = .crcB ∨ i = .appendCrcB) ∧ t.crc = crcB s.payload) ∨
        (i = .checkCrcA ∧ t.crc = crcA s.framePayload) ∨
        (i = .checkCrcB ∧ t.crc = crcB s.framePayload)))

/-- `CRC` is an output only: a command's whole result is the same whatever `CRC` held, but for `CRC`
itself where the command does not write it (R77, R13). -/
def Obligations.CrcRegisterIsNeverRead : Prop :=
  ∀ (i : Instr) (s : State) (c : Half), ∃ t, exec i s = .next t ∧
    (exec i { s with crc := c } = .next t ∨
      (t.crc = s.crc ∧ exec i { s with crc := c } = .next { t with crc := c }))

/-- What writes `LEN`: the host, with any value (R12), and the four successful commands that change a
length; no command leaves it above `BUFCAP` unless it was so before. -/
def Obligations.LenIsWrittenByHostAndFourCommands : Prop :=
  (∀ (s : State) (v : Half), perform (.regWrite 1 ⟨16, v⟩) s = .next { s with len := v }) ∧
  (∀ (i : Instr) (s t : State), exec i s = .next t → t.len ≠ s.len →
    (i = .appendCrcA ∨ i = .appendCrcB ∨ i = .cascadeUid ∨ i = .uncascadeUid) ∧
    t.err = 0x00#8 ∧ t.lenNat ≤ s.config.bufcap)

/-- Every command, in every state, completes with a next state: there is no internal error (R19;
93_implementation_defined.md U9). -/
def Obligations.EveryCommandCompletes : Prop :=
  ∀ (i : Instr) (s : State), ∃ t, exec i s = .next t ∧ SameHostSide s t

/-! ### The buffer's bounds (spec/20_memory.md R33) -/

/-- No command changes a byte at `BUFCAP` or above, or anywhere past the greatest index that R107
gives for it. -/
def Obligations.CommandsWriteOnlyInsideTheBuffer : Prop :=
  ∀ (i : Instr) (s t : State) (a : Nat), exec i s = .next t →
    t.buf.read a ≠ s.buf.read a →
    a < s.config.bufcap ∧
    (((i = .appendCrcA ∨ i = .appendCrcB) ∧ (a = s.lenNat ∨ a = s.lenNat + 1)) ∨
      (i = .cascadeUid ∧ a < t.lenNat) ∨ (i = .uncascadeUid ∧ a < t.lenNat))

/-- What a command does depends on no byte at `LEN` or above, nor at `BUFCAP` or above: with such bytes
different, its registers come out the same, and so does every byte that was the same. -/
def Obligations.CommandsReadOnlyThePayload : Prop :=
  ∀ (i : Instr) (s : State) (m : Memory),
    (∀ a, a < s.lenNat → a < s.config.bufcap → m.read a = s.buf.read a) →
    ∃ t u, exec i s = .next t ∧ exec i { s with buf := m } = .next u ∧
      u.len = t.len ∧ u.crc = t.crc ∧ u.err = t.err ∧ u.matchFlag = t.matchFlag ∧
      u.level = t.level ∧
      (∀ a, m.read a = s.buf.read a → u.buf.read a = t.buf.read a)

/-! ### Host transactions (spec/10_state.md R14, R15, R20) -/

/-- A register read replies with the register at its width and changes nothing else (R20; `CMD` reads
0x00: R109; `CAP` reads `BUFCAP`). -/
def Obligations.RegReadRepliesTheRegister : Prop :=
  ∀ s : State,
    perform (.regRead 0) s = .next { s with replies := s.replies ++ [⟨8, 0x00#8⟩] } ∧
    perform (.regRead 1) s = .next { s with replies := s.replies ++ [⟨16, s.len⟩] } ∧
    perform (.regRead 2) s = .next { s with replies := s.replies ++ [⟨16, s.crc⟩] } ∧
    perform (.regRead 3) s = .next { s with replies := s.replies ++ [⟨8, s.err⟩] } ∧
    perform (.regRead 4) s =
      .next { s with replies := s.replies ++ [⟨8, s.matchFlag.setWidth 8⟩] } ∧
    perform (.regRead 5) s = .next { s with replies := s.replies ++ [⟨8, s.level.setWidth 8⟩] } ∧
    (∃ c : Half, c.toNat = s.config.bufcap ∧
      perform (.regRead 6) s = .next { s with replies := s.replies ++ [⟨16, c⟩] })

/-- R15: a write to a read-only register changes nothing and starts nothing; a read has no side effect;
a number above 6 is refused. -/
def Obligations.ReadOnlyRegistersIgnoreWrites : Prop :=
  ∀ s : State,
    (∀ v : Half, perform (.regWrite 2 ⟨16, v⟩) s = .next s ∧
      perform (.regWrite 6 ⟨16, v⟩) s = .next s) ∧
    (∀ v : Byte, perform (.regWrite 3 ⟨8, v⟩) s = .next s ∧
      perform (.regWrite 4 ⟨8, v⟩) s = .next s ∧ perform (.regWrite 5 ⟨8, v⟩) s = .next s) ∧
    (∀ n, n ≤ 6 → ∃ v, perform (.regRead n) s = .next { s with replies := s.replies ++ [v] }) ∧
    (∀ n, 6 < n → perform (.regRead n) s = .refused (.noSuchRegister n) ∧
      ∀ v, perform (.regWrite n v) s = .refused (.noSuchRegister n))

/-- A buffer write stores exactly the byte written and nothing else, and a read gives it back, as often
as it is repeated, with no other effect (R30, R20). -/
def Obligations.BufWriteThenReadGivesTheByte : Prop :=
  ∀ (s : State) (i : Nat) (b : Byte), i < s.config.bufcap →
    ∃ t, perform (.bufWrite i ⟨8, b⟩) s = .next t ∧
      t.buf.read i = some b ∧ (∀ a, a ≠ i → t.buf.read a = s.buf.read a) ∧
      t = { s with buf := t.buf } ∧
      perform (.bufRead i) t = .next { t with replies := t.replies ++ [⟨8, b⟩] } ∧
      perform (.bufWrite i ⟨8, b⟩) t = .next t

/-- A read of a byte that nothing has written since reset completes with some byte, and draws afresh
(R132; 93_implementation_defined.md U1; the model's choice of the two treatments: log entry 4). -/
def Obligations.UnwrittenByteReadCompletes : Prop :=
  ∀ (s : State) (i : Nat), i < s.config.bufcap → s.buf.read i = none →
    ∃ b : Byte, perform (.bufRead i) s =
      .next { s with replies := s.replies ++ [⟨8, b⟩], draws := s.draws + 1 }

/-- A transaction completes exactly when R20's precondition holds, and is refused otherwise (R124;
log entry 9). The model's choices in it: a read of an unwritten byte completes (U1, log entry 4), and a
`BufWrite` of a value that is not 8 bits wide is refused (DEDUCED, log entry 13). -/
def Obligations.TransactionsCompleteExactlyWhenAccepted : Prop :=
  ∀ (tr : Transaction) (s : State),
    (tr.accepted s.config.bufcap = true → ∃ t, perform tr s = .next t) ∧
    (tr.accepted s.config.bufcap = false → ∃ r, perform tr s = .refused r)

/-- R32: an index of `BUFCAP` or above does not wrap and does not read as zero: it is refused. -/
def Obligations.IndexBeyondTheBufferIsRefused : Prop :=
  ∀ (s : State) (i : Nat) (v : Datum), s.config.bufcap ≤ i →
    perform (.bufRead i) s = .refused (.noSuchIndex i) ∧
    perform (.bufWrite i v) s = .refused (.noSuchIndex i)

/-! ### Reset and the invariant (spec/70_reset_and_hazards.md R131, spec/10_state.md R23) -/

/-- R130, R131: the state after `Reset`, from any state, and the state after power-on: every register
at its reset value, `CAP` at `BUFCAP`, `CMD` reading 0x00. That no byte of the buffer holds a value is
the model's reading of "unspecified" (R132; DEDUCED, log entry 7). -/
def Obligations.ResetLeavesTheResetValues : Prop :=
  (∀ s : State, ∃ t, perform .reset s = .next t ∧
    t.len = 0x0000#16 ∧ t.crc = 0x0000#16 ∧ t.err = 0x00#8 ∧ t.matchFlag = 0#1 ∧ t.level = 0#2 ∧
    (∀ i, t.buf.read i = none) ∧ t.config = s.config ∧
    t.regValue .cap = ⟨16, BitVec.ofNat 16 s.config.bufcap⟩ ∧ t.regValue .cmd = ⟨8, 0x00#8⟩) ∧
  State.reset.len = 0x0000#16 ∧ State.reset.crc = 0x0000#16 ∧ State.reset.err = 0x00#8 ∧
  State.reset.matchFlag = 0#1 ∧ State.reset.level = 0#2 ∧ (∀ i, State.reset.buf.read i = none) ∧
  State.reset.regValue .cap = ⟨16, BitVec.ofNat 16 State.reset.config.bufcap⟩ ∧
  State.reset.regValue .cmd = ⟨8, 0x00#8⟩

/-- The commands straight after a reset are defined and read no unwritten byte (R133). -/
def Obligations.CommandsStraightAfterReset : Prop :=
  ∀ s t : State, perform .reset s = .next t →
    (∃ u, exec .crcA t = .next u ∧ u.crc = 0x6363#16 ∧ u.err = 0x00#8 ∧ u.draws = t.draws) ∧
    (∃ u, exec .crcB t = .next u ∧ u.crc = 0x0000#16 ∧ u.err = 0x00#8 ∧ u.draws = t.draws) ∧
    (∃ u, exec .appendCrcA t = .next u ∧ u.err = 0x00#8 ∧ u.draws = t.draws) ∧
    (∃ u, exec .appendCrcB t = .next u ∧ u.err = 0x00#8 ∧ u.draws = t.draws) ∧
    (∃ u, exec .checkCrcA t = .next u ∧ u.err = 0x03#8 ∧ u.draws = t.draws) ∧
    (∃ u, exec .checkCrcB t = .next u ∧ u.err = 0x03#8 ∧ u.draws = t.draws) ∧
    (∃ u, exec .cascadeUid t = .next u ∧ u.err = 0x02#8 ∧ u.draws = t.draws) ∧
    (∃ u, exec .uncascadeUid t = .next u ∧ u.err = 0x03#8 ∧ u.draws = t.draws)

/-- The invariant holds at reset. -/
def Obligations.InvariantHoldsAtReset : Prop :=
  State.reset.Inv ∧ State.reset.LevelFitsLen

/-- Every step keeps the invariant, from every state that meets it: the buffer's canonical form and
bounds, the legal error codes, and the relations of `ERR`, `MATCH` and `LEVEL` (R23). -/
def Obligations.EveryStepKeepsTheInvariant : Prop :=
  ∀ s s' : State, s.Inv → step s = .next s' → s'.Inv

/-- A level left by a cascade command keeps fitting `LEN` until the host next writes `LEN` (R23's last
clause). -/
def Obligations.LevelFitsLenUntilLenIsWritten : Prop :=
  ∀ s s' : State, s.LevelFitsLen → step s = .next s' →
    (∀ t rest, s.pending = t :: rest → t.writesLen = false) → s'.LevelFitsLen
end

