-- ==== Sys2Proof/Laws/Memory.lean ====
section
/-! SUPPORT. The buffer: a read after a write, and the canonical form, which every operation keeps. -/

namespace Sys2Proof.Machine

variable {m : Memory}

/-! ### Read after write -/

@[simp] theorem Memory.read_nil (i : Nat) : Memory.read [] i = none := rfl

theorem Memory.read_cons (a : Nat) (b : Byte) (m : Memory) (i : Nat) :
    Memory.read ((a, b) :: m) i = if a = i then some b else m.read i := rfl

theorem Memory.read_write (m : Memory) (i j : Nat) (b : Byte) :
    (m.write i b).read j = if i = j then some b else m.read j := by
  induction m with
  | nil => rfl
  | cons c m ih =>
    obtain ⟨a, v⟩ := c
    simp only [Memory.write]
    split
    · simp [Memory.read_cons]
    · split
      · simp only [Memory.read_cons]
        split
        · rfl
        · rw [if_neg (by omega)]
      · simp only [Memory.read_cons, ih]
        split
        · rw [if_neg (by omega)]
        · rfl

@[simp] theorem Memory.read_write_same (m : Memory) (i : Nat) (b : Byte) :
    (m.write i b).read i = some b := by simp [Memory.read_write]

theorem Memory.read_write_other (m : Memory) {i j : Nat} (b : Byte) (h : i ≠ j) :
    (m.write i b).read j = m.read j := by simp [Memory.read_write, h]

theorem Memory.read_erase (m : Memory) (i j : Nat) :
    (m.erase i).read j = if i = j then none else m.read j := by
  induction m with
  | nil => simp [Memory.erase]
  | cons c m ih =>
    obtain ⟨a, v⟩ := c
    rw [Memory.erase] at ih ⊢
    by_cases hai : a = i
    · rw [List.filter_cons_of_neg (by simpa using hai), ih, Memory.read_cons]
      split
      · rfl
      · rw [if_neg (by omega)]
    · rw [List.filter_cons_of_pos (by simpa using hai), Memory.read_cons, ih, Memory.read_cons]
      by_cases haj : a = j
      · rw [if_pos haj, if_neg (by omega), if_pos haj]
      · simp [haj]

theorem Memory.read_put (m : Memory) (i j : Nat) (c : Option Byte) :
    (m.put i c).read j = if i = j then c else m.read j := by
  cases c with
  | none => exact Memory.read_erase m i j
  | some b => exact Memory.read_write m i j b

/-- What a stored sequence leaves in each byte: the bytes from `i` up are the sequence, the others are
as before. -/
theorem Memory.read_putAll (m : Memory) (i j : Nat) (cs : List (Option Byte)) :
    (m.putAll i cs).read j =
      if i ≤ j ∧ j < i + cs.length then (cs[j - i]?).join else m.read j := by
  induction cs generalizing m i with
  | nil => simp [Memory.putAll]
  | cons c cs ih =>
    simp only [Memory.putAll, ih, Memory.read_put, List.length_cons]
    by_cases h : i = j
    · subst h; simp
    · by_cases h' : i + 1 ≤ j ∧ j < i + 1 + cs.length
      · rw [if_pos h', if_pos (by omega)]
        obtain ⟨k, rfl⟩ : ∃ k, j = i + 1 + k := ⟨j - (i + 1), by omega⟩
        have : i + 1 + k - i = k + 1 := by omega
        simp [this]
      · rw [if_neg h', if_neg h, if_neg (by omega)]

theorem Memory.read_putAll_outside (m : Memory) {i j : Nat} (cs : List (Option Byte))
    (h : j < i ∨ i + cs.length ≤ j) : (m.putAll i cs).read j = m.read j := by
  rw [Memory.read_putAll, if_neg (by omega)]

theorem Memory.read_putAll_inside (m : Memory) {i k : Nat} (cs : List (Option Byte))
    (h : k < cs.length) : (m.putAll i cs).read (i + k) = cs[k] := by
  rw [Memory.read_putAll, if_pos (by omega)]
  simp [h]

@[simp] theorem Memory.length_contents (m : Memory) (n : Nat) : (m.contents n).length = n := by
  simp [Memory.contents]

@[simp] theorem Memory.getElem_contents (m : Memory) {n k : Nat} (h : k < (m.contents n).length) :
    (m.contents n)[k] = m.read k := by
  simp [Memory.contents]

/-! ### The canonical form -/

theorem Memory.wf_nil : Memory.wf [] := List.Pairwise.nil

theorem Memory.wf_cons {a : Nat} {b : Byte} :
    Memory.wf ((a, b) :: m) ↔ (∀ c ∈ m, a < c.1) ∧ m.wf := by
  simp [Memory.wf]

theorem Memory.mem_write {i : Nat} {b : Byte} {c : Host.Cell} (h : c ∈ m.write i b) :
    c = (i, b) ∨ c ∈ m := by
  induction m with
  | nil => simpa [Memory.write] using h
  | cons d m ih =>
    obtain ⟨a, v⟩ := d
    simp only [Memory.write] at h
    split at h
    · simpa using h
    · split at h
      · simp only [List.mem_cons] at h ⊢; tauto
      · simp only [List.mem_cons] at h ⊢
        rcases h with h | h
        · tauto
        · rcases ih h with h | h <;> tauto

theorem Memory.wf_write (hm : m.wf) (i : Nat) (b : Byte) : (m.write i b).wf := by
  induction m with
  | nil => simp [Memory.write, Memory.wf]
  | cons c m ih =>
    obtain ⟨a, v⟩ := c
    have hm' := Memory.wf_cons.1 hm
    simp only [Memory.write]
    split
    · rename_i hia
      refine Memory.wf_cons.2 ⟨fun c hc => ?_, hm⟩
      rcases List.mem_cons.1 hc with rfl | hc
      · exact hia
      · exact lt_trans hia (hm'.1 c hc)
    · split
      · rename_i hia; subst hia; exact Memory.wf_cons.2 hm'
      · refine Memory.wf_cons.2 ⟨fun c hc => ?_, ih hm'.2⟩
        rcases Memory.mem_write hc with rfl | hc
        · simp only; omega
        · exact hm'.1 c hc

theorem Memory.wf_erase (hm : m.wf) (i : Nat) : (m.erase i).wf :=
  hm.sublist (List.filter_sublist.map _)

theorem Memory.wf_put (hm : m.wf) (i : Nat) (c : Option Byte) : (m.put i c).wf := by
  cases c with
  | none => exact Memory.wf_erase hm i
  | some b => exact Memory.wf_write hm i b

theorem Memory.wf_putAll (hm : m.wf) (i : Nat) (cs : List (Option Byte)) : (m.putAll i cs).wf := by
  induction cs generalizing m i with
  | nil => exact hm
  | cons c cs ih => exact ih (Memory.wf_put hm i c) (i + 1)

theorem Memory.within_write {cap i : Nat} (hm : m.within cap) (hi : i < cap) (b : Byte) :
    (m.write i b).within cap := fun c hc => by
  rcases Memory.mem_write hc with rfl | hc
  · exact hi
  · exact hm c hc

theorem Memory.within_put {cap i : Nat} (hm : m.within cap) (hi : i < cap) (c : Option Byte) :
    (m.put i c).within cap := by
  cases c with
  | none => exact fun d hd => hm d (List.mem_of_mem_filter hd)
  | some b => exact Memory.within_write hm hi b

theorem Memory.within_putAll {cap : Nat} (hm : m.within cap) (i : Nat) (cs : List (Option Byte))
    (h : i + cs.length ≤ cap) : (m.putAll i cs).within cap := by
  induction cs generalizing m i with
  | nil => exact hm
  | cons c cs ih =>
    simp only [List.length_cons] at h
    exact ih (Memory.within_put hm (by omega) c) (i + 1) (by omega)

theorem Memory.read_eq_none_of_lt {i : Nat} (h : ∀ c ∈ m, i < c.1) : m.read i = none := by
  induction m with
  | nil => rfl
  | cons c m ih =>
    obtain ⟨a, b⟩ := c
    have ha : i < a := h (a, b) (by simp)
    rw [Memory.read_cons, if_neg (by omega), ih fun c hc => h c (by simp [hc])]

/-- Equal memories are equal data: two canonical memories that read the same everywhere are one. -/
theorem Memory.ext_of_wf {m m' : Memory} (hm : m.wf) (hm' : m'.wf)
    (h : ∀ i, m.read i = m'.read i) : m = m' := by
  induction m generalizing m' with
  | nil =>
    cases m' with
    | nil => rfl
    | cons c m' => obtain ⟨a, b⟩ := c; simpa [Memory.read_cons] using h a
  | cons c m ih =>
    obtain ⟨a, b⟩ := c
    have hc := Memory.wf_cons.1 hm
    cases m' with
    | nil => simpa [Memory.read_cons] using h a
    | cons c' m' =>
      obtain ⟨a', b'⟩ := c'
      have hc' := Memory.wf_cons.1 hm'
      have haa : a = a' := by
        rcases lt_trichotomy a a' with hlt | heq | hgt
        · have h1 := h a
          rw [Memory.read_cons, if_pos rfl, Memory.read_eq_none_of_lt] at h1
          · simp at h1
          · intro c hc1
            rcases List.mem_cons.1 hc1 with rfl | hc1
            · exact hlt
            · exact lt_trans hlt (hc'.1 c hc1)
        · exact heq
        · have h1 := h a'
          rw [Memory.read_cons a' b', if_pos rfl, Memory.read_eq_none_of_lt] at h1
          · simp at h1
          · intro c hc1
            rcases List.mem_cons.1 hc1 with rfl | hc1
            · exact hgt
            · exact lt_trans hgt (hc.1 c hc1)
      subst haa
      have hbb : b = b' := by simpa [Memory.read_cons] using h a
      subst hbb
      rw [ih hc.2 hc'.2 fun i => ?_]
      by_cases hi : a = i
      · subst hi
        rw [Memory.read_eq_none_of_lt hc.1, Memory.read_eq_none_of_lt hc'.1]
      · simpa [Memory.read_cons, hi] using h i

end Sys2Proof.Machine
end

