-- ==== Sys2Proof/Laws/State.lean ====
section
/-! SUPPORT. What each named update of the state does to each field. -/

namespace Sys2Proof.Machine

variable (s : State)

/-! ### `raise` -/

@[simp] theorem raise_config (e : Error) : (raise e s).config = s.config := rfl

@[simp] theorem raise_buf (e : Error) : (raise e s).buf = s.buf := rfl

@[simp] theorem raise_len (e : Error) : (raise e s).len = s.len := rfl

@[simp] theorem raise_crc (e : Error) : (raise e s).crc = s.crc := rfl

@[simp] theorem raise_err (e : Error) : (raise e s).err = e.code := rfl

@[simp] theorem raise_matchFlag (e : Error) : (raise e s).matchFlag = 0#1 := rfl

@[simp] theorem raise_level (e : Error) : (raise e s).level = 0#2 := rfl

@[simp] theorem raise_pending (e : Error) : (raise e s).pending = s.pending := rfl

@[simp] theorem raise_replies (e : Error) : (raise e s).replies = s.replies := rfl

@[simp] theorem raise_draws (e : Error) : (raise e s).draws = s.draws := rfl

/-! ### `done` -/

@[simp] theorem done_config (m : BitVec 1) (l : BitVec 2) : (done m l s).config = s.config := rfl

@[simp] theorem done_buf (m : BitVec 1) (l : BitVec 2) : (done m l s).buf = s.buf := rfl

@[simp] theorem done_len (m : BitVec 1) (l : BitVec 2) : (done m l s).len = s.len := rfl

@[simp] theorem done_crc (m : BitVec 1) (l : BitVec 2) : (done m l s).crc = s.crc := rfl

@[simp] theorem done_err (m : BitVec 1) (l : BitVec 2) : (done m l s).err = 0#8 := rfl

@[simp] theorem done_matchFlag (m : BitVec 1) (l : BitVec 2) : (done m l s).matchFlag = m := rfl

@[simp] theorem done_level (m : BitVec 1) (l : BitVec 2) : (done m l s).level = l := rfl

@[simp] theorem done_pending (m : BitVec 1) (l : BitVec 2) : (done m l s).pending = s.pending := rfl

@[simp] theorem done_replies (m : BitVec 1) (l : BitVec 2) : (done m l s).replies = s.replies := rfl

@[simp] theorem done_draws (m : BitVec 1) (l : BitVec 2) : (done m l s).draws = s.draws := rfl

/-! ### `reply` -/

@[simp] theorem reply_config (v : Datum) : (s.reply v).config = s.config := rfl

@[simp] theorem reply_buf (v : Datum) : (s.reply v).buf = s.buf := rfl

@[simp] theorem reply_len (v : Datum) : (s.reply v).len = s.len := rfl

@[simp] theorem reply_crc (v : Datum) : (s.reply v).crc = s.crc := rfl

@[simp] theorem reply_err (v : Datum) : (s.reply v).err = s.err := rfl

@[simp] theorem reply_matchFlag (v : Datum) : (s.reply v).matchFlag = s.matchFlag := rfl

@[simp] theorem reply_level (v : Datum) : (s.reply v).level = s.level := rfl

@[simp] theorem reply_pending (v : Datum) : (s.reply v).pending = s.pending := rfl

@[simp] theorem reply_replies (v : Datum) : (s.reply v).replies = s.replies ++ [v] := rfl

@[simp] theorem reply_draws (v : Datum) : (s.reply v).draws = s.draws := rfl

/-! ### `afterReading` -/

@[simp] theorem afterReading_config (is : List Nat) : (s.afterReading is).config = s.config := by
  unfold State.afterReading; split <;> rfl

@[simp] theorem afterReading_buf (is : List Nat) : (s.afterReading is).buf = s.buf := by
  unfold State.afterReading; split <;> rfl

@[simp] theorem afterReading_len (is : List Nat) : (s.afterReading is).len = s.len := by
  unfold State.afterReading; split <;> rfl

@[simp] theorem afterReading_crc (is : List Nat) : (s.afterReading is).crc = s.crc := by
  unfold State.afterReading; split <;> rfl

@[simp] theorem afterReading_err (is : List Nat) : (s.afterReading is).err = s.err := by
  unfold State.afterReading; split <;> rfl

@[simp] theorem afterReading_matchFlag (is : List Nat) : (s.afterReading is).matchFlag = s.matchFlag := by
  unfold State.afterReading; split <;> rfl

@[simp] theorem afterReading_level (is : List Nat) : (s.afterReading is).level = s.level := by
  unfold State.afterReading; split <;> rfl

@[simp] theorem afterReading_pending (is : List Nat) : (s.afterReading is).pending = s.pending := by
  unfold State.afterReading; split <;> rfl

@[simp] theorem afterReading_replies (is : List Nat) : (s.afterReading is).replies = s.replies := by
  unfold State.afterReading; split <;> rfl

/-- Reading bytes that have all been written changes nothing. -/
@[simp] theorem afterReading_of_written (is : List Nat) (h : s.buf.written is = true) :
    s.afterReading is = s := by
  simp [State.afterReading, h]

/-! ### `resetBlock` -/

@[simp] theorem resetBlock_config : (resetBlock s).config = s.config := rfl

@[simp] theorem resetBlock_buf : (resetBlock s).buf = [] := rfl

@[simp] theorem resetBlock_len : (resetBlock s).len = 0#16 := rfl

@[simp] theorem resetBlock_crc : (resetBlock s).crc = 0#16 := rfl

@[simp] theorem resetBlock_err : (resetBlock s).err = 0#8 := rfl

@[simp] theorem resetBlock_matchFlag : (resetBlock s).matchFlag = 0#1 := rfl

@[simp] theorem resetBlock_level : (resetBlock s).level = 0#2 := rfl

@[simp] theorem resetBlock_pending : (resetBlock s).pending = s.pending := rfl

@[simp] theorem resetBlock_replies : (resetBlock s).replies = s.replies := rfl

@[simp] theorem resetBlock_draws : (resetBlock s).draws = s.draws := rfl

/-! ### `failedWith` -/

@[simp] theorem failedWith_config (code : Byte) : (s.failedWith code).config = s.config := rfl

@[simp] theorem failedWith_buf (code : Byte) : (s.failedWith code).buf = s.buf := rfl

@[simp] theorem failedWith_len (code : Byte) : (s.failedWith code).len = s.len := rfl

@[simp] theorem failedWith_crc (code : Byte) : (s.failedWith code).crc = s.crc := rfl

@[simp] theorem failedWith_err (code : Byte) : (s.failedWith code).err = code := rfl

@[simp] theorem failedWith_matchFlag (code : Byte) : (s.failedWith code).matchFlag = 0#1 := rfl

@[simp] theorem failedWith_level (code : Byte) : (s.failedWith code).level = 0#2 := rfl

@[simp] theorem failedWith_pending (code : Byte) : (s.failedWith code).pending = s.pending := rfl

@[simp] theorem failedWith_replies (code : Byte) : (s.failedWith code).replies = s.replies := rfl

@[simp] theorem failedWith_draws (code : Byte) : (s.failedWith code).draws = s.draws := rfl

/-! ### `withFetchWord` -/

@[simp] theorem withFetchWord_config (nbits w : Nat) : (s.withFetchWord nbits w).config = s.config := rfl

@[simp] theorem withFetchWord_buf (nbits w : Nat) : (s.withFetchWord nbits w).buf = s.buf := rfl

@[simp] theorem withFetchWord_len (nbits w : Nat) : (s.withFetchWord nbits w).len = s.len := rfl

@[simp] theorem withFetchWord_crc (nbits w : Nat) : (s.withFetchWord nbits w).crc = s.crc := rfl

@[simp] theorem withFetchWord_err (nbits w : Nat) : (s.withFetchWord nbits w).err = s.err := rfl

@[simp] theorem withFetchWord_matchFlag (nbits w : Nat) : (s.withFetchWord nbits w).matchFlag = s.matchFlag := rfl

@[simp] theorem withFetchWord_level (nbits w : Nat) : (s.withFetchWord nbits w).level = s.level := rfl

@[simp] theorem withFetchWord_pending (nbits w : Nat) :
    (s.withFetchWord nbits w).pending = cmdWrite (BitVec.ofNat 8 w) :: s.pending := rfl

@[simp] theorem withFetchWord_replies (nbits w : Nat) : (s.withFetchWord nbits w).replies = s.replies := rfl

@[simp] theorem withFetchWord_draws (nbits w : Nat) : (s.withFetchWord nbits w).draws = s.draws := rfl

end Sys2Proof.Machine
end

