-- ==== Sys2Proof/Laws/Ops.lean ====
section
/-! SUPPORT. What the shared operations can do: reading bytes, the check of `LEN`, the two endings. -/

namespace Sys2Proof.Machine

/-! ### Reading -/

@[simp] theorem length_bytes (s : State) (n : Nat) : (s.bytes n).length = n := by
  simp [State.bytes]

@[simp] theorem getElem_bytes (s : State) {n k : Nat} (h : k < (s.bytes n).length) :
    (s.bytes n)[k] = s.byteAt k := by
  simp [State.bytes]

theorem byteAt_of_read {s : State} {i : Nat} {b : Byte} (h : s.buf.read i = some b) :
    s.byteAt i = b := by simp [State.byteAt, h]

theorem bytes_succ (s : State) (n : Nat) : s.bytes (n + 1) = s.bytes n ++ [s.byteAt n] := by
  simp [State.bytes, List.range_succ]

/-- Two states that read alike below `n`, on the same occasion, give the same bytes. -/
theorem bytes_congr {s t : State} {n : Nat} (hd : t.draws = s.draws)
    (h : ∀ a, a < n → t.buf.read a = s.buf.read a) : t.bytes n = s.bytes n := by
  simp only [State.bytes, List.map_inj_left, List.mem_range]
  intro a ha
  simp [State.byteAt, h a ha, hd]

/-- Bytes that have been written read the same on every occasion. -/
theorem bytes_congr_of_written {s t : State} {n : Nat} (hw : s.allWritten n)
    (h : ∀ a, a < n → t.buf.read a = s.buf.read a) : t.bytes n = s.bytes n := by
  simp only [State.bytes, List.map_inj_left, List.mem_range]
  intro a ha
  obtain ⟨b, hb⟩ := Option.isSome_iff_exists.1 (hw a ha)
  simp [State.byteAt, h a ha, hb]

theorem written_range_iff (s : State) (n : Nat) :
    s.buf.written (List.range n) = true ↔ s.allWritten n := by
  simp [Memory.written, State.allWritten]

theorem afterReading_draws (s : State) (is : List Nat) :
    (s.afterReading is).draws = s.draws ∨ (s.afterReading is).draws = s.draws + 1 := by
  unfold State.afterReading; split <;> simp

/-! ### The check of `LEN` and the endings -/

theorem checkLen_of_le {s : State} (h : s.lenNat ≤ s.config.bufcap) (body : State → State) :
    checkLen s body = body s := by
  rw [checkLen, if_neg (by omega)]

theorem checkLen_of_lt {s : State} (h : s.config.bufcap < s.lenNat) (body : State → State) :
    checkLen s body = s.failedWith 0x02#8 := by
  rw [checkLen, if_pos h]; rfl

/-- What a command that checks `LEN` first can do (R115). -/
theorem checkLen_cases (s : State) (body : State → State) :
    (s.config.bufcap < s.lenNat ∧ checkLen s body = s.failedWith 0x02#8) ∨
      (s.lenNat ≤ s.config.bufcap ∧ checkLen s body = body s) := by
  rcases Nat.lt_or_ge s.config.bufcap s.lenNat with h | h
  · exact .inl ⟨h, checkLen_of_lt h body⟩
  · exact .inr ⟨h, checkLen_of_le h body⟩

theorem raise_eq_failedWith (e : Error) (s : State) : raise e s = s.failedWith e.code := rfl

theorem done_succeeded (m : BitVec 1) (l : BitVec 2) (s : State) : (done m l s).succeeded m l :=
  ⟨rfl, rfl, rfl⟩

theorem error_code_ne_zero (e : Error) : e.code ≠ 0#8 := by cases e <;> decide

theorem error_code_le_four (e : Error) : e.code.toNat ≤ 4 := by cases e <;> decide

/-! ### The register file -/

theorem ofNumber_number (r : Reg) : Reg.ofNumber r.number = some r := by cases r <;> rfl

theorem ofNumber_eq_some {n : Nat} {r : Reg} (h : Reg.ofNumber n = some r) : n = r.number := by
  unfold Reg.ofNumber at h
  split at h <;> first | (cases h; rfl) | cases h

theorem ofNumber_eq_none_iff (n : Nat) : Reg.ofNumber n = none ↔ 6 < n := by
  rcases Nat.lt_or_ge 6 n with h | h
  · refine iff_of_true ?_ h
    unfold Reg.ofNumber
    split <;> first | omega | rfl
  · refine iff_of_false ?_ (by omega)
    interval_cases n <;> simp [Reg.ofNumber]

@[simp] theorem ofWidth_self {w : Nat} (v : BitVec w) : Datum.ofWidth w ⟨w, v⟩ = some v := by
  simp [Datum.ofWidth]

theorem ofWidth_eq_none_iff (w : Nat) (v : Datum) : v.ofWidth w = none ↔ v.width ≠ w := by
  unfold Datum.ofWidth
  split <;> simp_all

/-- `BUFCAP` fits `CAP`: the register shows the parameter itself (R3, R14). -/
theorem capValue_toNat (s : State) : s.capValue.toNat = s.config.bufcap := by
  have := s.config.atMost
  simp only [State.capValue, BitVec.toNat_ofNat]
  omega

end Sys2Proof.Machine
end

