-- ==== Sys2Proof/Laws/Cascade.lean ====
section
/-! SUPPORT. What the layout of the cascade-tagged form is, and what each body of the cascade-UID
family does (spec/41_cascade_uid.md R87 to R91), said once. -/

namespace Sys2Proof.Machine

variable {α : Type}

theorem length_addTags (tag : α) (k : Nat) (u : List α) (h : 3 * k ≤ u.length) :
    (addTags tag k u).length = u.length + k := by
  induction k generalizing u with
  | zero => rfl
  | succ k ih =>
    simp only [addTags, List.length_cons, List.length_append, List.length_take]
    rw [ih (u.drop 3) (by simp; omega), List.length_drop]
    omega

theorem length_dropTags (k : Nat) (f : List α) (h : 4 * k ≤ f.length) :
    (dropTags k f).length = f.length - k := by
  induction k generalizing f with
  | zero => simp [dropTags]
  | succ k ih =>
    simp only [dropTags, List.length_append, List.length_take, List.length_drop]
    rw [ih (f.drop 4) (by simp; omega), List.length_drop]
    omega

theorem levelOfUidLen_eq_some {n level : Nat} :
    levelOfUidLen n = some level ↔
      (n = 4 ∧ level = 1) ∨ (n = 7 ∧ level = 2) ∨ (n = 10 ∧ level = 3) := by
  unfold levelOfUidLen
  split_ifs <;> simp <;> omega

theorem levelOfUidLen_eq_none {n : Nat} :
    levelOfUidLen n = none ↔ n ≠ 4 ∧ n ≠ 7 ∧ n ≠ 10 := by
  unfold levelOfUidLen
  split_ifs <;> simp <;> omega

theorem levelOfFormLen_eq_some {n level : Nat} :
    levelOfFormLen n = some level ↔
      (n = 4 ∧ level = 1) ∨ (n = 8 ∧ level = 2) ∨ (n = 12 ∧ level = 3) := by
  unfold levelOfFormLen
  split_ifs <;> simp <;> omega

theorem levelOfFormLen_eq_none {n : Nat} :
    levelOfFormLen n = none ↔ n ≠ 4 ∧ n ≠ 8 ∧ n ≠ 12 := by
  unfold levelOfFormLen
  split_ifs <;> simp <;> omega

/-- The level and the length of a UID determine each other (R85). -/
theorem uidLen_of_level {n level : Nat} (h : levelOfUidLen n = some level) :
    n = 3 * level + 1 ∧ 1 ≤ level ∧ level ≤ 3 := by
  rcases levelOfUidLen_eq_some.1 h with ⟨rfl, rfl⟩ | ⟨rfl, rfl⟩ | ⟨rfl, rfl⟩ <;> simp

/-- The level and the length of a cascade-tagged form determine each other (R87, R88). -/
theorem formLen_of_level {n level : Nat} (h : levelOfFormLen n = some level) :
    n = 4 * level ∧ 1 ≤ level ∧ level ≤ 3 := by
  rcases levelOfFormLen_eq_some.1 h with ⟨rfl, rfl⟩ | ⟨rfl, rfl⟩ | ⟨rfl, rfl⟩ <;> simp

/-! ### The bodies -/

variable (s : State)

theorem cascadeBuf_of_badLen (h : levelOfUidLen s.lenNat = none) :
    cascadeBuf s = s.failedWith 0x02#8 := by
  rw [cascadeBuf, h]; rfl

/-- `CASCADE_UID` on a UID length (R90): what each byte holds, the length and the level. -/
theorem cascadeBuf_spec {level : Nat} (h : levelOfUidLen s.lenNat = some level) :
    (cascadeBuf s).buf =
        s.buf.putAll 0 (addTags (some cascadeTag) (level - 1) (s.buf.contents s.lenNat)) ∧
      (cascadeBuf s).lenNat = 4 * level ∧
      (cascadeBuf s).succeeded 0#1 (BitVec.ofNat 2 level) ∧
      (cascadeBuf s).crc = s.crc ∧ (cascadeBuf s).draws = s.draws ∧
      SameHostSide s (cascadeBuf s) := by
  have hl := uidLen_of_level h
  have hlen : (addTags (some cascadeTag) (level - 1) (s.buf.contents s.lenNat)).length
      = 4 * level := by
    rw [length_addTags _ _ _ (by simp; omega), Memory.length_contents]; omega
  rw [cascadeBuf, h]
  refine ⟨rfl, ?_, done_succeeded _ _ _, rfl, rfl, rfl, rfl, rfl⟩
  simp only [State.lenNat, done_len] at hlen ⊢
  rw [hlen, BitVec.toNat_ofNat]; omega

theorem uncascadeBuf_of_badLen (h : levelOfFormLen s.lenNat = none) :
    uncascadeBuf s = s.failedWith 0x03#8 := by
  rw [uncascadeBuf, h]; rfl

theorem uncascadeBuf_of_badTag {level : Nat} (h : levelOfFormLen s.lenNat = some level)
    (ht : ¬ ∀ i ∈ tagIndices level, s.byteAt i = cascadeTag) :
    uncascadeBuf s = (s.afterReading (tagIndices level)).failedWith 0x03#8 := by
  rw [uncascadeBuf, h]
  simp only
  rw [if_neg (by simpa using ht)]; rfl

/-- `UNCASCADE_UID` on a cascade-tagged form (R91): what each byte holds, the length and the level. -/
theorem uncascadeBuf_spec {level : Nat} (h : levelOfFormLen s.lenNat = some level)
    (ht : ∀ i ∈ tagIndices level, s.byteAt i = cascadeTag) :
    (uncascadeBuf s).buf = s.buf.putAll 0 (dropTags (level - 1) (s.buf.contents s.lenNat)) ∧
      (uncascadeBuf s).lenNat = 3 * level + 1 ∧
      (uncascadeBuf s).succeeded 0#1 (BitVec.ofNat 2 level) ∧
      (uncascadeBuf s).crc = s.crc ∧ SameHostSide s (uncascadeBuf s) := by
  have hl := formLen_of_level h
  have hlen : (dropTags (level - 1) (s.buf.contents s.lenNat)).length = 3 * level + 1 := by
    rw [length_dropTags _ _ (by simp; omega), Memory.length_contents]; omega
  rw [uncascadeBuf, h]
  simp only
  rw [if_pos (by simpa using ht)]
  refine ⟨rfl, ?_, done_succeeded _ _ _, by simp, by simp [SameHostSide]⟩
  simp only [State.lenNat, done_len] at hlen ⊢
  rw [hlen, BitVec.toNat_ofNat]; omega

end Sys2Proof.Machine
end

