-- ==== Sys2Proof/Laws/Crc.lean ====
section
/-! SUPPORT. What each body of the CRC family does (spec/40_crc.md R66 to R71), said once. -/

namespace Sys2Proof.Machine

/-! ### Sequences and byte order -/

@[simp] theorem crc16Raw_nil (init : Half) : crc16Raw init [] = init := rfl

theorem crc16Raw_append (init : Half) (x y : List Byte) :
    crc16Raw init (x ++ y) = crc16Raw (crc16Raw init x) y := by
  simp [crc16Raw, List.foldl_append]

@[simp] theorem crc16Raw_cons (init : Half) (b : Byte) (x : List Byte) :
    crc16Raw init (b :: x) = crc16Raw (crc16Update init b) x := rfl

theorem fromLe16_le16 (v : Half) :
    fromLe16 (v.extractLsb' 0 8) (v.extractLsb' 8 8) = v := by
  ext i hi
  simp only [fromLe16, BitVec.getElem_or, BitVec.getElem_shiftLeft, BitVec.getElem_setWidth,
    BitVec.getLsbD_extractLsb']
  by_cases h : i < 8
  · simp [h, BitVec.getLsbD_eq_getElem hi]
  · have h1 : i - 8 < 8 := by omega
    have h2 : 8 + (i - 8) = i := by omega
    simp [h, h1, h2, BitVec.getLsbD_eq_getElem hi]

theorem matchOf_eq_one_iff (c r : Half) : matchOf c r = 1#1 ↔ c = r := by
  unfold matchOf; split <;> simp_all

theorem matchOf_eq_zero_iff (c r : Half) : matchOf c r = 0#1 ↔ c ≠ r := by
  unfold matchOf; split <;> simp_all

/-! ### The bodies -/

variable (crc : List Byte → Half) (s : State)

/-- `CRC_A`, `CRC_B` on a valid length (R66, R67). -/
theorem computeCrc_spec :
    (computeCrc crc s).crc = crc s.payload ∧ (computeCrc crc s).succeeded 0#1 0#2 ∧
      (computeCrc crc s).buf = s.buf ∧ (computeCrc crc s).len = s.len ∧
      SameHostSide s (computeCrc crc s) := by
  simp [computeCrc, State.succeeded, SameHostSide]

theorem appendCrc_of_short (h : s.config.bufcap < s.lenNat + 2) :
    appendCrc crc s = s.failedWith 0x01#8 := by
  rw [appendCrc, if_pos h]; rfl

theorem appendCrc_of_fits (h : s.lenNat + 2 ≤ s.config.bufcap) :
    appendCrc crc s =
      done 0#1 0#2
        { s.afterReading s.payloadIndices with
          buf := s.buf.putAll s.lenNat ((le16 (crc s.payload)).map some)
          crc := crc s.payload
          len := BitVec.ofNat 16 (s.lenNat + 2) } := by
  rw [appendCrc, if_neg (by omega)]

/-- `APPEND_CRC_A`, `APPEND_CRC_B` with room for two bytes (R68, R69). -/
theorem appendCrc_spec (h : s.lenNat + 2 ≤ s.config.bufcap) :
    (appendCrc crc s).crc = crc s.payload ∧ (appendCrc crc s).succeeded 0#1 0#2 ∧
      (appendCrc crc s).buf.read s.lenNat = some ((crc s.payload).extractLsb' 0 8) ∧
      (appendCrc crc s).buf.read (s.lenNat + 1) = some ((crc s.payload).extractLsb' 8 8) ∧
      (∀ a, a ≠ s.lenNat → a ≠ s.lenNat + 1 → (appendCrc crc s).buf.read a = s.buf.read a) ∧
      (appendCrc crc s).lenNat = s.lenNat + 2 ∧ SameHostSide s (appendCrc crc s) := by
  have hcap := s.config.atMost
  rw [appendCrc_of_fits crc s h]
  refine ⟨rfl, done_succeeded _ _ _, ?_, ?_, ?_, ?_, ?_⟩
  · simp [Memory.read_putAll, le16]
  · simp [Memory.read_putAll, le16]
  · intro a h1 h2
    simp only [done_buf]
    apply Memory.read_putAll_outside
    simp [le16]; omega
  · simp only [State.lenNat, done_len, BitVec.toNat_ofNat] at h ⊢
    omega
  · simp [SameHostSide]

theorem checkCrc_of_short (h : s.lenNat < 2) : checkCrc crc s = s.failedWith 0x03#8 := by
  rw [checkCrc, if_pos h]; rfl

/-- `CHECK_CRC_A`, `CHECK_CRC_B` on a frame that can hold a CRC (R70, R71). -/
theorem checkCrc_spec (h : 2 ≤ s.lenNat) :
    (checkCrc crc s).crc = crc s.framePayload ∧
      (checkCrc crc s).succeeded (matchOf (crc s.framePayload) s.frameCrc) 0#2 ∧
      (checkCrc crc s).buf = s.buf ∧ (checkCrc crc s).len = s.len ∧
      SameHostSide s (checkCrc crc s) := by
  rw [checkCrc, if_neg (by omega)]
  simp [State.succeeded, SameHostSide]

end Sys2Proof.Machine
end

