-- ==== Sys2Proof/Laws/Decode.lean ====
section
/-! SUPPORT. The rows of spec/opcode_table.json: they do not overlap, and the decoder gives each code
the command of the row it belongs to. -/

namespace Sys2Proof

/-- The rows partition the 256 codes (spec/30_encoding.md R47). -/
theorem opcodeTable_partition :
    ∀ op : Byte, (opcodeTable.filter fun r => r.fits op).length = 1 := by decide

/-- The decoder's command is one of the row that the code belongs to. -/
theorem decode_fits : ∀ op : Byte, (decode op).row.fits op = true := by decide

theorem decodeBytes_singleton (op : Byte) : decodeBytes [op] = .ok (decode op) := rfl

theorem decodeTableWord_eight (w : Nat) : decodeTableWord 8 w = some (decode (BitVec.ofNat 8 w)) :=
  rfl

end Sys2Proof
end

