-- ==== Sys2Proof/Laws/Step.lean ====
section
/-! SUPPORT. What a step can do, said once: nothing when the host has nothing in hand, else the oldest
transaction (spec/20_memory.md R39). -/

namespace Sys2Proof.Machine

theorem step_of_idle {s : State} (h : s.pending = []) : step s = .next s := by
  simp [step, takeTransaction, h]

theorem step_of_pending {s : State} {t : Transaction} {rest : List Transaction}
    (h : s.pending = t :: rest) : step s = perform t { s with pending := rest } := by
  simp [step, takeTransaction, h]

/-- What a step that answers a next state can have done. -/
theorem step_cases {s s' : State} (h : step s = .next s') :
    (s.pending = [] ∧ s' = s) ∨
      ∃ t rest, s.pending = t :: rest ∧ perform t { s with pending := rest } = .next s' := by
  cases hp : s.pending with
  | nil => rw [step_of_idle hp] at h; exact .inl ⟨rfl, by cases h; rfl⟩
  | cons t rest => exact .inr ⟨t, rest, rfl, by rw [← step_of_pending hp]; exact h⟩

/-- What a transaction that answers a next state can have done (R20). -/
theorem perform_cases {t : Transaction} {s s' : State} (h : perform t s = .next s') :
    (∃ n r, t = .regRead n ∧ Reg.ofNumber n = some r ∧ s' = s.reply (s.regValue r)) ∨
      (∃ op, t = cmdWrite op ∧ exec (decode op) s = .next s') ∨
      (∃ v, t = .regWrite 1 ⟨16, v⟩ ∧ s' = { s with len := v }) ∨
      (∃ n v, t = .regWrite n v ∧ 2 ≤ n ∧ n ≤ 6 ∧ s' = s) ∨
      (∃ i, t = .bufRead i ∧ i < s.config.bufcap ∧
        s' = (s.afterReading [i]).reply ⟨8, s.byteAt i⟩) ∨
      (∃ i b, t = .bufWrite i ⟨8, b⟩ ∧ i < s.config.bufcap ∧
        s' = { s with buf := s.buf.write i b }) ∨
      (t = .reset ∧ s' = resetBlock s) := by
  cases t with
  | regRead n =>
    refine .inl ⟨n, ?_⟩
    simp only [perform, regRead] at h
    split at h
    · cases h
    · rename_i r hr; exact ⟨r, rfl, hr, by cases h; rfl⟩
  | regWrite n v =>
    obtain ⟨w, v⟩ := v
    simp only [perform, regWrite] at h
    split at h
    · cases h
    · rename_i r hr
      have hn := ofNumber_eq_some hr
      split at h
      · cases h
      · rename_i bits hb
        have hw : w = r.width := by
          by_contra hne
          rw [(ofWidth_eq_none_iff _ _).2 hne] at hb; cases hb
        subst hw
        rw [ofWidth_self] at hb
        cases hb
        subst hn
        cases r with
        | cmd => exact .inr (.inl ⟨_, rfl, h⟩)
        | len => exact .inr (.inr (.inl ⟨_, rfl, by cases h; rfl⟩))
        | crc => exact .inr (.inr (.inr (.inl ⟨2, _, rfl, by omega, by omega, by cases h; rfl⟩)))
        | err => exact .inr (.inr (.inr (.inl ⟨3, _, rfl, by omega, by omega, by cases h; rfl⟩)))
        | flags => exact .inr (.inr (.inr (.inl ⟨4, _, rfl, by omega, by omega, by cases h; rfl⟩)))
        | level => exact .inr (.inr (.inr (.inl ⟨5, _, rfl, by omega, by omega, by cases h; rfl⟩)))
        | cap => exact .inr (.inr (.inr (.inl ⟨6, _, rfl, by omega, by omega, by cases h; rfl⟩)))
  | bufRead i =>
    simp only [perform, bufRead] at h
    split at h
    · rename_i hi; cases h; exact .inr (.inr (.inr (.inr (.inl ⟨i, rfl, hi, rfl⟩))))
    · cases h
  | bufWrite i v =>
    obtain ⟨w, v⟩ := v
    simp only [perform, bufWrite] at h
    split at h
    · rename_i hi
      split at h
      · cases h
      · rename_i bits hb
        have hw : w = 8 := by
          by_contra hne
          rw [(ofWidth_eq_none_iff _ _).2 hne] at hb; cases hb
        subst hw
        rw [ofWidth_self] at hb
        cases hb
        cases h
        exact .inr (.inr (.inr (.inr (.inr (.inl ⟨i, _, rfl, hi, rfl⟩)))))
    · cases h
  | reset => cases h; exact .inr (.inr (.inr (.inr (.inr (.inr ⟨rfl, rfl⟩)))))

/-- The write of a code to `CMD` runs the command (R20, R47). -/
theorem exec_cmdWrite (op : Byte) (s : State) : perform (cmdWrite op) s = exec (decode op) s := rfl

end Sys2Proof.Machine
end

