-- ==== Sys2Proof/Laws/Exec.lean ====
section
/-! SUPPORT. What a command can do, said once for all commands: leave the state alone (`NOP`), end in
an error that touches only the status triple, or have one of the five effects of the two families. -/

namespace Sys2Proof.Machine

theorem afterReading_eq (s : State) (is : List Nat) :
    ∃ d, s.afterReading is = { s with draws := d } := by
  unfold State.afterReading
  split <;> exact ⟨_, rfl⟩

theorem exec_of_reserved {i : Instr} (h : i.isReserved = true) (s : State) :
    exec i s = .next (s.failedWith 0x04#8) := by
  cases i <;> first | rfl | exact absurd h (by decide)

/-- The codes of the four errors (R110). -/
def isErrorCode (c : Byte) : Prop := c = 0x01#8 ∨ c = 0x02#8 ∨ c = 0x03#8 ∨ c = 0x04#8

theorem isErrorCode_ne_zero {c : Byte} (h : isErrorCode c) : c ≠ 0x00#8 := by
  rcases h with rfl | rfl | rfl | rfl <;> decide

theorem isErrorCode_le_four {c : Byte} (h : isErrorCode c) : c.toNat ≤ 4 := by
  rcases h with rfl | rfl | rfl | rfl <;> decide

/-- The state is one that an error left: only the status triple differs, and perhaps the model's
counter of draws. -/
def FailedFrom (s t : State) : Prop :=
  ∃ c d, isErrorCode c ∧ t = { s.failedWith c with draws := d }

theorem failedFrom_failedWith (s : State) {c : Byte} (h : isErrorCode c) :
    FailedFrom s (s.failedWith c) := ⟨c, s.draws, h, rfl⟩

/-- What `CRC_A` and `CRC_B` leave. -/
theorem computeCrc_eq (crc : List Byte → Half) (s : State) :
    ∃ d, computeCrc crc s =
      { s with crc := crc s.payload, err := 0#8, matchFlag := 0#1, level := 0#2, draws := d } := by
  obtain ⟨d, hd⟩ := afterReading_eq s s.payloadIndices
  exact ⟨d, by rw [computeCrc, hd]; rfl⟩

/-- What `APPEND_CRC_A` and `APPEND_CRC_B` can leave. -/
theorem appendCrc_cases (crc : List Byte → Half) (s : State) :
    FailedFrom s (appendCrc crc s) ∨
      (s.lenNat + 2 ≤ s.config.bufcap ∧ ∃ d, appendCrc crc s =
        { s with
          crc := crc s.payload, err := 0#8, matchFlag := 0#1, level := 0#2, draws := d
          len := BitVec.ofNat 16 (s.lenNat + 2)
          buf := s.buf.putAll s.lenNat ((le16 (crc s.payload)).map some) }) := by
  rcases Nat.lt_or_ge s.config.bufcap (s.lenNat + 2) with h | h
  · rw [appendCrc_of_short crc s h]
    exact .inl (failedFrom_failedWith s (.inl rfl))
  · obtain ⟨d, hd⟩ := afterReading_eq s s.payloadIndices
    exact .inr ⟨h, d, by rw [appendCrc_of_fits crc s h, hd]; rfl⟩

/-- What `CHECK_CRC_A` and `CHECK_CRC_B` can leave. -/
theorem checkCrc_cases (crc : List Byte → Half) (s : State) :
    FailedFrom s (checkCrc crc s) ∨
      (2 ≤ s.lenNat ∧ ∃ d, checkCrc crc s =
        { s with
          crc := crc s.framePayload, err := 0#8, level := 0#2, draws := d
          matchFlag := matchOf (crc s.framePayload) s.frameCrc }) := by
  rcases Nat.lt_or_ge s.lenNat 2 with h | h
  · rw [checkCrc_of_short crc s h]
    exact .inl (failedFrom_failedWith s (.inr (.inr (.inl rfl))))
  · obtain ⟨d, hd⟩ := afterReading_eq s s.payloadIndices
    exact .inr ⟨h, d, by rw [checkCrc, if_neg (by omega), hd]; rfl⟩

/-- What `CASCADE_UID` can leave; the success is `cascadeBuf_spec`. -/
theorem cascadeBuf_cases (s : State) :
    FailedFrom s (cascadeBuf s) ∨ ∃ level, levelOfUidLen s.lenNat = some level := by
  cases h : levelOfUidLen s.lenNat with
  | none =>
    rw [cascadeBuf_of_badLen s h]
    exact .inl (failedFrom_failedWith s (.inr (.inl rfl)))
  | some level => exact .inr ⟨level, rfl⟩

/-- What `UNCASCADE_UID` can leave; the success is `uncascadeBuf_spec`. -/
theorem uncascadeBuf_cases (s : State) :
    FailedFrom s (uncascadeBuf s) ∨
      ∃ level, levelOfFormLen s.lenNat = some level ∧
        ∀ i ∈ tagIndices level, s.byteAt i = cascadeTag := by
  cases h : levelOfFormLen s.lenNat with
  | none =>
    rw [uncascadeBuf_of_badLen s h]
    exact .inl (failedFrom_failedWith s (.inr (.inr (.inl rfl))))
  | some level =>
    by_cases ht : ∀ i ∈ tagIndices level, s.byteAt i = cascadeTag
    · exact .inr ⟨level, rfl, ht⟩
    · obtain ⟨d, hd⟩ := afterReading_eq s (tagIndices level)
      rw [uncascadeBuf_of_badTag s h ht, hd]
      exact .inl ⟨_, d, .inr (.inr (.inl rfl)), rfl⟩

/-- What a command other than `NOP` can do. -/
theorem exec_cases {i : Instr} {s t : State} (hn : i ≠ .nop) (h : exec i s = .next t) :
    FailedFrom s t ∨
      (s.lenNat ≤ s.config.bufcap ∧
        ((∃ crc, ((i = .crcA ∧ crc = crcA) ∨ (i = .crcB ∧ crc = crcB)) ∧ t = computeCrc crc s) ∨
          (∃ crc, ((i = .appendCrcA ∧ crc = crcA) ∨ (i = .appendCrcB ∧ crc = crcB)) ∧
            s.lenNat + 2 ≤ s.config.bufcap ∧ t = appendCrc crc s) ∨
          (∃ crc, ((i = .checkCrcA ∧ crc = crcA) ∨ (i = .checkCrcB ∧ crc = crcB)) ∧
            2 ≤ s.lenNat ∧ t = checkCrc crc s) ∨
          (∃ level, i = .cascadeUid ∧ levelOfUidLen s.lenNat = some level ∧ t = cascadeBuf s) ∨
          (∃ level, i = .uncascadeUid ∧ levelOfFormLen s.lenNat = some level ∧
            (∀ j ∈ tagIndices level, s.byteAt j = cascadeTag) ∧ t = uncascadeBuf s))) := by
  have checked : ∀ body : State → State, exec i s = .next (checkLen s body) →
      FailedFrom s t ∨ (s.lenNat ≤ s.config.bufcap ∧ t = body s) := by
    intro body hb
    rw [hb] at h
    cases h
    rcases checkLen_cases s body with ⟨_, he⟩ | ⟨hl, he⟩
    · rw [he]; exact .inl (failedFrom_failedWith s (.inr (.inl rfl)))
    · exact .inr ⟨hl, he⟩
  cases i with
  | nop => exact absurd rfl hn
  | crcA =>
    exact (checked (computeCrc crcA) rfl).imp_right fun ⟨hl, e⟩ =>
      ⟨hl, .inl ⟨_, .inl ⟨rfl, rfl⟩, e⟩⟩
  | crcB =>
    exact (checked (computeCrc crcB) rfl).imp_right fun ⟨hl, e⟩ =>
      ⟨hl, .inl ⟨_, .inr ⟨rfl, rfl⟩, e⟩⟩
  | appendCrcA =>
    rcases checked (appendCrc crcA) rfl with hf | ⟨hl, e⟩
    · exact .inl hf
    · exact (appendCrc_cases crcA s).imp (fun hf => e ▸ hf) fun ⟨hfit, _⟩ =>
        ⟨hl, .inr (.inl ⟨_, .inl ⟨rfl, rfl⟩, hfit, e⟩)⟩
  | appendCrcB =>
    rcases checked (appendCrc crcB) rfl with hf | ⟨hl, e⟩
    · exact .inl hf
    · exact (appendCrc_cases crcB s).imp (fun hf => e ▸ hf) fun ⟨hfit, _⟩ =>
        ⟨hl, .inr (.inl ⟨_, .inr ⟨rfl, rfl⟩, hfit, e⟩)⟩
  | checkCrcA =>
    rcases checked (checkCrc crcA) rfl with hf | ⟨hl, e⟩
    · exact .inl hf
    · exact (checkCrc_cases crcA s).imp (fun hf => e ▸ hf) fun ⟨h2, _⟩ =>
        ⟨hl, .inr (.inr (.inl ⟨_, .inl ⟨rfl, rfl⟩, h2, e⟩))⟩
  | checkCrcB =>
    rcases checked (checkCrc crcB) rfl with hf | ⟨hl, e⟩
    · exact .inl hf
    · exact (checkCrc_cases crcB s).imp (fun hf => e ▸ hf) fun ⟨h2, _⟩ =>
        ⟨hl, .inr (.inr (.inl ⟨_, .inr ⟨rfl, rfl⟩, h2, e⟩))⟩
  | cascadeUid =>
    rcases checked cascadeBuf rfl with hf | ⟨hl, e⟩
    · exact .inl hf
    · exact (cascadeBuf_cases s).imp (fun hf => e ▸ hf) fun ⟨level, hlev⟩ =>
        ⟨hl, .inr (.inr (.inr (.inl ⟨level, rfl, hlev, e⟩)))⟩
  | uncascadeUid =>
    rcases checked uncascadeBuf rfl with hf | ⟨hl, e⟩
    · exact .inl hf
    · exact (uncascadeBuf_cases s).imp (fun hf => e ▸ hf) fun ⟨level, hlev, ht⟩ =>
        ⟨hl, .inr (.inr (.inr (.inr ⟨level, rfl, hlev, ht, e⟩)))⟩
  | reserved09 => cases h; exact .inl (failedFrom_failedWith s (.inr (.inr (.inr rfl))))
  | reserved0A0B => cases h; exact .inl (failedFrom_failedWith s (.inr (.inr (.inr rfl))))
  | reserved0C0F => cases h; exact .inl (failedFrom_failedWith s (.inr (.inr (.inr rfl))))
  | reserved101F => cases h; exact .inl (failedFrom_failedWith s (.inr (.inr (.inr rfl))))
  | reserved203F => cases h; exact .inl (failedFrom_failedWith s (.inr (.inr (.inr rfl))))
  | reserved407F => cases h; exact .inl (failedFrom_failedWith s (.inr (.inr (.inr rfl))))
  | reserved80FF => cases h; exact .inl (failedFrom_failedWith s (.inr (.inr (.inr rfl))))

end Sys2Proof.Machine
end

