-- ==== Sys2Proof/Laws/PerInstr.lean ====
section
/-! SUPPORT. For every command: its code lies in the command's own row of spec/opcode_table.json. -/

namespace Sys2Proof.Laws.EncodesToItsRow

/-- A well-formed command's code has the pattern of its row under the row's mask. -/
def Statement (i : Instr) : Prop := i.wf = true → i.row.fits (encode i) = true

theorem nop : Statement .nop := fun _ => by decide
theorem crcA : Statement .crcA := fun _ => by decide
theorem crcB : Statement .crcB := fun _ => by decide
theorem appendCrcA : Statement .appendCrcA := fun _ => by decide
theorem appendCrcB : Statement .appendCrcB := fun _ => by decide
theorem checkCrcA : Statement .checkCrcA := fun _ => by decide
theorem checkCrcB : Statement .checkCrcB := fun _ => by decide
theorem cascadeUid : Statement .cascadeUid := fun _ => by decide
theorem uncascadeUid : Statement .uncascadeUid := fun _ => by decide
theorem reserved09 : Statement .reserved09 := fun _ => by decide
theorem reserved0A0B (code : Byte) : Statement (.reserved0A0B code) := fun h => h
theorem reserved0C0F (code : Byte) : Statement (.reserved0C0F code) := fun h => h
theorem reserved101F (code : Byte) : Statement (.reserved101F code) := fun h => h
theorem reserved203F (code : Byte) : Statement (.reserved203F code) := fun h => h
theorem reserved407F (code : Byte) : Statement (.reserved407F code) := fun h => h
theorem reserved80FF (code : Byte) : Statement (.reserved80FF code) := fun h => h

end Sys2Proof.Laws.EncodesToItsRow
end

