-- ==== Sys2Proof/Tests/Slice0.lean ====
section
/-! SUPPORT. Tests on small states. Expected values are spec/95_test_vectors.md's (the vector is named
in each comment) or are written out from a rule's own example. The second half shows, for each
statement with hypotheses, a state and operands that meet them. -/

namespace Sys2Proof.Tests

open Sys2Proof Sys2Proof.Machine

/-! ### Decoding: words written out bit by bit from spec/30_encoding.md R47 -/

theorem test_decode_nop : decode 0b00000000#8 = .nop := by decide
theorem test_decode_crcA : decode 0b00000001#8 = .crcA := by decide
theorem test_decode_crcB : decode 0b00000010#8 = .crcB := by decide
theorem test_decode_appendCrcA : decode 0b00000011#8 = .appendCrcA := by decide
theorem test_decode_appendCrcB : decode 0b00000100#8 = .appendCrcB := by decide
theorem test_decode_checkCrcA : decode 0b00000101#8 = .checkCrcA := by decide
theorem test_decode_checkCrcB : decode 0b00000110#8 = .checkCrcB := by decide
theorem test_decode_cascadeUid : decode 0b00000111#8 = .cascadeUid := by decide
theorem test_decode_uncascadeUid : decode 0b00001000#8 = .uncascadeUid := by decide
theorem test_decode_reserved09 : decode 0b00001001#8 = .reserved09 := by decide
theorem test_decode_reserved0A0B :
    decode 0b00001010#8 = .reserved0A0B 0x0A#8 ∧ decode 0b00001011#8 = .reserved0A0B 0x0B#8 := by
  decide
theorem test_decode_reserved0C0F :
    decode 0b00001100#8 = .reserved0C0F 0x0C#8 ∧ decode 0b00001111#8 = .reserved0C0F 0x0F#8 := by
  decide
theorem test_decode_reserved101F :
    decode 0b00010000#8 = .reserved101F 0x10#8 ∧ decode 0b00011111#8 = .reserved101F 0x1F#8 := by
  decide
theorem test_decode_reserved203F :
    decode 0b00100000#8 = .reserved203F 0x20#8 ∧ decode 0b00111111#8 = .reserved203F 0x3F#8 := by
  decide
theorem test_decode_reserved407F :
    decode 0b01000000#8 = .reserved407F 0x40#8 ∧ decode 0b01111111#8 = .reserved407F 0x7F#8 := by
  decide
theorem test_decode_reserved80FF :
    decode 0b10000000#8 = .reserved80FF 0x80#8 ∧ decode 0b11111111#8 = .reserved80FF 0xFF#8 := by
  decide

/-- Rejected by name: no byte, and more than one (R50). -/
theorem test_decodeBytes_rejects :
    decodeTableWord 0 0 = none ∧ decodeTableWord 16 0x0301 = none ∧
      decodeTableWord 8 0x07 = some .cascadeUid := by decide

/-! ### Well-formedness: a code outside its row is refused -/

theorem test_wf_refuses_0A0B : (Instr.reserved0A0B 0x0C#8).wf = false := by decide
theorem test_wf_refuses_0C0F : (Instr.reserved0C0F 0x0B#8).wf = false := by decide
theorem test_wf_refuses_101F : (Instr.reserved101F 0x20#8).wf = false := by decide
theorem test_wf_refuses_203F : (Instr.reserved203F 0x1F#8).wf = false := by decide
theorem test_wf_refuses_407F : (Instr.reserved407F 0x80#8).wf = false := by decide
theorem test_wf_refuses_80FF : (Instr.reserved80FF 0x7F#8).wf = false := by decide

/-! ### States to test on -/

/-- The reset state with the bytes loaded (R53 `LOAD`) and `BUFCAP` 256. -/
def loaded (bs : List Byte) : State :=
  { State.reset with buf := Memory.putAll [] 0 (bs.map some), len := BitVec.ofNat 16 bs.length }

/-- The reset state with a length and nothing loaded. -/
def withLen (n : Nat) : State := { State.reset with len := BitVec.ofNat 16 n }

/-- The same on the smallest buffer (R3: `BUFCAP` 12). -/
def onSmallest (s : State) : State := { s with config := { bufcap := 12 } }

/-- The state after a command. -/
def after (i : Instr) (s : State) : State := (nextOf (exec i s)).getD s

/-- The state after a step that takes one transaction. -/
def afterStep (t : Transaction) (s : State) : State :=
  (nextOf (step { s with pending := [t] })).getD s

/-! ### The CRC functions -/

/-- V-UPD1, V-UPD4, V-UPD9, V-UPD10. -/
theorem test_crc16Update :
    crc16Update 0x6363#16 0x00#8 = 0x51FE#16 ∧ crc16Update 0xFFFF#16 0xFF#8 = 0x00FF#16 ∧
      crc16Update 0x8000#16 0x00#8 = 0x0080#16 ∧ crc16Update 0x1234#16 0x56#8 = 0x4006#16 := by
  decide

/-- V-UPD2, V-UPD3 by the byte-at-a-time form (R65). -/
theorem test_crc16UpdateBytewise :
    crc16UpdateBytewise 0x6363#16 0xFF#8 = 0x5E86#16 ∧
      crc16UpdateBytewise 0xFFFF#16 0x00#8 = 0x0F87#16 := by decide

/-- V-A5, V-A7, V-A13. -/
theorem test_crcs :
    crcA [0x12#8, 0x34#8] = 0xCF26#16 ∧ crcB [0x0F#8, 0xAA#8, 0xFF#8] = 0xD1FC#16 ∧
      crcA [0x04#8, 0x88#8, 0xEC#8, 0x4A#8] = 0x43A5#16 ∧
      crcB [0x04#8, 0x88#8, 0xEC#8, 0x4A#8] = 0xE97B#16 := by decide +kernel

/-! ### The commands -/

/-- V-A10. -/
theorem test_crcA_hlta :
    (after .crcA (loaded [0x50#8, 0x00#8])).crc = 0xCD57#16 := by decide +kernel

/-- V-H6: `LEN` 0xFFFF. -/
theorem test_crcA_oversized :
    (after .crcA (withLen 0xFFFF)).err = 0x02#8 ∧ (after .crcA (withLen 0xFFFF)).crc = 0#16 := by
  decide

/-- V-A11. -/
theorem test_crcB_reqb :
    (after .crcB (loaded [0x05#8, 0x00#8, 0x00#8])).crc = 0xFF71#16 := by decide +kernel

/-- V-H8: straight after reset. -/
theorem test_crcB_empty :
    (after .crcB State.reset).crc = 0x0000#16 ∧ (after .crcB State.reset).err = 0x00#8 := by decide

/-- V-AP1. -/
theorem test_appendCrcA_hlta :
    (after .appendCrcA (loaded [0x50#8, 0x00#8])).buf =
        [(0, 0x50#8), (1, 0x00#8), (2, 0x57#8), (3, 0xCD#8)] ∧
      (after .appendCrcA (loaded [0x50#8, 0x00#8])).len = 4#16 := by decide +kernel

/-- P4's first command: 11 bytes of 12, no byte written. -/
theorem test_appendCrcA_too_small :
    (after .appendCrcA (onSmallest (withLen 11))).err = 0x01#8 ∧
      (after .appendCrcA (onSmallest (withLen 11))).buf = [] := by decide

/-- V-AP2. -/
theorem test_appendCrcB_reqb :
    (after .appendCrcB (loaded [0x05#8, 0x00#8, 0x00#8])).buf.read 3 = some 0x71#8 ∧
      (after .appendCrcB (loaded [0x05#8, 0x00#8, 0x00#8])).buf.read 4 = some 0xFF#8 := by decide +kernel

/-- V-AP7: `LEN` = `BUFCAP`. -/
theorem test_appendCrcB_full :
    (after .appendCrcB (withLen 256)).err = 0x01#8 ∧ (after .appendCrcB (withLen 256)).len = 256#16 := by
  decide

/-- V-CK1. -/
theorem test_checkCrcA_match :
    (after .checkCrcA (loaded [0x50#8, 0x00#8, 0x57#8, 0xCD#8])).matchFlag = 1#1 ∧
      (after .checkCrcA (loaded [0x50#8, 0x00#8, 0x57#8, 0xCD#8])).crc = 0xCD57#16 := by decide +kernel

/-- V-CK14: the CRC bytes in the other order do not match, and that is no error. -/
theorem test_checkCrcA_big_endian :
    (after .checkCrcA (loaded [0x50#8, 0x00#8, 0xCD#8, 0x57#8])).matchFlag = 0#1 ∧
      (after .checkCrcA (loaded [0x50#8, 0x00#8, 0xCD#8, 0x57#8])).err = 0x00#8 := by decide +kernel

/-- V-CK4. -/
theorem test_checkCrcB_mismatch :
    (after .checkCrcB (loaded [0x05#8, 0x00#8, 0x01#8, 0x71#8, 0xFF#8])).matchFlag = 0#1 ∧
      (after .checkCrcB (loaded [0x05#8, 0x00#8, 0x01#8, 0x71#8, 0xFF#8])).crc = 0xEEF8#16 := by
  decide +kernel

/-- V-CK9 and V-CK12. -/
theorem test_checkCrcB_short :
    (after .checkCrcB (loaded [0x00#8, 0x00#8])).matchFlag = 1#1 ∧
      (after .checkCrcB (withLen 0)).err = 0x03#8 := by decide

/-- V-C2. -/
theorem test_cascadeUid_seven :
    (after .cascadeUid (loaded [0x04#8, 0x88#8, 0xEC#8, 0x4A#8, 0x11#8, 0x22#8, 0x33#8])).buf =
      [(0, 0x88#8), (1, 0x04#8), (2, 0x88#8), (3, 0xEC#8), (4, 0x4A#8), (5, 0x11#8), (6, 0x22#8),
        (7, 0x33#8)] := by decide

/-- V-C3. -/
theorem test_cascadeUid_ten :
    (after .cascadeUid (loaded [0x04#8, 0x11#8, 0x22#8, 0x33#8, 0x44#8, 0x55#8, 0x66#8, 0x77#8,
      0x88#8, 0x99#8])).buf =
      (loaded [0x88#8, 0x04#8, 0x11#8, 0x22#8, 0x88#8, 0x33#8, 0x44#8, 0x55#8, 0x66#8, 0x77#8, 0x88#8,
        0x99#8]).buf := by decide

/-- V-U4: the UID, and the stale bytes above it. -/
theorem test_uncascadeUid_twelve :
    (after .uncascadeUid (loaded [0x88#8, 0x01#8, 0x02#8, 0x03#8, 0x88#8, 0x04#8, 0x05#8, 0x06#8,
      0x07#8, 0x08#8, 0x09#8, 0x0A#8])).buf =
      (loaded [0x01#8, 0x02#8, 0x03#8, 0x04#8, 0x05#8, 0x06#8, 0x07#8, 0x08#8, 0x09#8, 0x0A#8, 0x09#8,
        0x0A#8]).buf := by decide

/-- V-U9: the second tag is wrong. -/
theorem test_uncascadeUid_bad_tag :
    (after .uncascadeUid (loaded [0x88#8, 0x01#8, 0x02#8, 0x03#8, 0x87#8, 0x04#8, 0x05#8, 0x06#8,
      0x07#8, 0x08#8, 0x09#8, 0x0A#8])).err = 0x03#8 := by decide

/-- R132: a copy of a byte that nothing has written is not written. -/
theorem test_cascadeUid_unwritten :
    (after .cascadeUid { loaded [0x01#8, 0x02#8] with len := 7#16 }).buf =
      [(0, 0x88#8), (1, 0x01#8), (2, 0x02#8)] := by decide

/-- V-N2. -/
theorem test_nop_keeps_error :
    (after .nop { State.reset with err := 0x03#8 }).err = 0x03#8 := by decide

/-- V-X1 and V-X2: code 0x09, and 0xFF before the check of `LEN`. -/
theorem test_reserved :
    (after .reserved09 { State.reset with matchFlag := 1#1 }) = { State.reset with err := 0x04#8 } ∧
      (after (decode 0xFF#8) (withLen 0xFFFF)).err = 0x04#8 := by decide

/-! ### Host transactions -/

/-- V-H1: `CAP` reads `BUFCAP`, `CMD` reads 0x00. -/
theorem test_regRead_cap :
    (afterStep (.regRead 6) State.reset).replies = [⟨16, 0x0100#16⟩] ∧
      (afterStep (.regRead 0) State.reset).replies = [⟨8, 0x00#8⟩] := by decide

/-- V-H5. -/
theorem test_regWrite_len :
    (afterStep (.regWrite 1 ⟨16, 0xFFFF#16⟩) State.reset).len = 0xFFFF#16 := by decide

/-- V-H4: a buffer write keeps the results. -/
theorem test_bufWrite_keeps_results :
    afterStep (.bufWrite 0 ⟨8, 0xAB#8⟩) { State.reset with crc := 0xCD57#16, matchFlag := 1#1 } =
      { State.reset with crc := 0xCD57#16, matchFlag := 1#1, buf := [(0, 0xAB#8)] } := by decide

/-- V-H9, and a value of the wrong width: refused. -/
theorem test_refused :
    isRefused (perform (.bufRead 256) State.reset) = true ∧
      isRefused (perform (.regRead 7) State.reset) = true ∧
      isRefused (perform (.regWrite 1 ⟨8, 0x00#8⟩) State.reset) = true := by decide

/-- V-H7. -/
theorem test_reset :
    afterStep .reset { loaded [0x50#8, 0x00#8] with crc := 0xCD57#16, level := 2#2 } =
      State.reset := by decide

/-- R53: the expansions of `LOAD` and `DUMP`. -/
theorem test_load :
    load [0x50#8, 0x00#8] =
        [.bufWrite 0 ⟨8, 0x50#8⟩, .bufWrite 1 ⟨8, 0x00#8⟩, .regWrite 1 ⟨16, 2#16⟩] ∧
      dump 2 = [.bufRead 0, .bufRead 1] := by decide

/-! ### The hypotheses of the statements can be met

Each theorem names the statement and shows a state and operands that meet a clause's hypotheses
together, at the ends of a clause's range where it has one. -/

/-- DecodeAndEncodeAgree: at the ends of the reserved rows. -/
theorem witness_DecodeAndEncodeAgree :
    (Instr.reserved0A0B 0x0B#8).wf = true ∧ (Instr.reserved80FF 0xFF#8).wf = true ∧
      Instr.nop.wf = true := by decide

/-- OpcodeMapSelectsTheCommands, ReservedCodesReportUnsupported: the ends of the reserved range. -/
theorem witness_ReservedRange : 0x09#8 ≤ (0x09#8 : Byte) ∧ 0x09#8 ≤ (0xFF#8 : Byte) := by decide

/-- StepRunsTheWrittenCommand. -/
theorem witness_StepRunsTheWrittenCommand :
    Instr.crcA.wf = true ∧
      ({ State.reset with pending := [.regWrite 0 ⟨8, encode .crcA⟩] } : State).pending =
        .regWrite 0 ⟨8, encode .crcA⟩ :: [] := by decide

/-- StepTakesTheOldestTransaction, EveryStepKeepsTheInvariant, LevelFitsLenUntilLenIsWritten: a step
that takes a read, from a state with the invariant. -/
theorem witness_StepTakesTheOldestTransaction :
    ∃ s s' : State, s.Inv ∧ s.LevelFitsLen ∧ s.pending = .regRead 1 :: [] ∧ step s = .next s' ∧
      (∀ t rest, s.pending = t :: rest → t.writesLen = false) := by
  refine ⟨{ State.reset with pending := [.regRead 1], level := 2#2, len := 8#16 }, _, ?_, ?_, rfl,
    rfl, ?_⟩
  · exact ⟨List.Pairwise.nil, by simp [State.reset], by decide, by decide, by decide⟩
  · exact fun _ => .inl rfl
  · intro t rest h
    cases h
    rfl

/-- IdleBlockKeepsItsState. -/
theorem witness_IdleBlockKeepsItsState : State.reset.pending = [] := rfl

/-- CrcAComputesThePayloadCrc, CrcBComputesThePayloadCrc, FirstErrorInOrderIsReported: a length at
`BUFCAP`, an empty payload, and a length just above. -/
theorem witness_CrcLengths :
    (withLen 256).lenNat = (withLen 256).config.bufcap ∧ (withLen 0).lenNat = 0 ∧
      (withLen 257).config.bufcap + 1 = (withLen 257).lenNat := by decide

/-- CrcAComputesThePayloadCrc, CommandsReadOnlyThePayload: a memory that differs above the payload. -/
theorem witness_TailOfTheBuffer :
    ∀ a, a < (loaded [0x50#8, 0x00#8]).lenNat →
      Memory.read [(0, 0x50#8), (1, 0x00#8), (2, 0xFF#8)] a = (loaded [0x50#8, 0x00#8]).buf.read a := by
  decide

/-- AppendCrcAStoresTheCrc, AppendCrcBStoresTheCrc, AppendThenCheckMatches: the largest length with
room for two bytes and for four, on the smallest buffer, all written; the two that are too long to
append to, and one above `BUFCAP`. -/
theorem witness_AppendLengths :
    (withLen 254).lenNat + 2 = (withLen 254).config.bufcap ∧
      (onSmallest (loaded [1#8, 2#8, 3#8, 4#8, 5#8, 6#8, 7#8, 8#8])).lenNat + 4 = 12 ∧
      (withLen 255).config.bufcap < (withLen 255).lenNat + 2 ∧
      (withLen 256).lenNat ≤ (withLen 256).config.bufcap ∧
      (withLen 257).config.bufcap < (withLen 257).lenNat := by decide

theorem witness_AppendWritten :
    (onSmallest (loaded [1#8, 2#8, 3#8, 4#8, 5#8, 6#8, 7#8, 8#8])).allWritten 8 := by
  unfold State.allWritten; decide

/-- CheckCrcAValidatesTheFrame, CheckCrcBValidatesTheFrame: the shortest and the longest frame, one
too short, one above `BUFCAP`. -/
theorem witness_CheckLengths :
    2 = (withLen 2).lenNat ∧ (withLen 256).lenNat = (withLen 256).config.bufcap ∧
      (withLen 1).lenNat < 2 ∧ (withLen 257).config.bufcap < (withLen 257).lenNat := by decide

/-- EmptyPayloadIsValid. -/
theorem witness_EmptyPayloadIsValid : State.reset.lenNat = 0 := by decide

/-- SingleBitErrorIsDetected, ResidueVerdictAgreesWithCheck: a good A frame, its last byte and bit. -/
theorem witness_GoodFrameA :
    let s := loaded [0x50#8, 0x00#8, 0x57#8, 0xCD#8]
    2 ≤ s.lenNat ∧ s.lenNat ≤ s.config.bufcap ∧ s.allWritten s.lenNat ∧ 3 < s.lenNat ∧
      s.buf.read 3 = some 0xCD#8 ∧ 7 < 8 ∧ s.frameCrc = crcA s.framePayload := by
  unfold State.allWritten; decide +kernel

/-- SingleBitErrorIsDetected, ResidueVerdictAgreesWithCheck: a good B frame, its first byte. -/
theorem witness_GoodFrameB :
    let s := loaded [0x05#8, 0x00#8, 0x00#8, 0x71#8, 0xFF#8]
    2 ≤ s.lenNat ∧ s.lenNat ≤ s.config.bufcap ∧ s.allWritten s.lenNat ∧ 0 < s.lenNat ∧
      s.buf.read 0 = some 0x05#8 ∧ s.frameCrc = crcB s.framePayload := by
  unfold State.allWritten; decide +kernel

/-- CascadeFormLayout, CascadeThenUncascadeRestores: a UID with a form and a level. -/
theorem witness_CascadeForm :
    cascade [1#8, 2#8, 3#8, 4#8, 5#8, 6#8, 7#8] =
        some [0x88#8, 1#8, 2#8, 3#8, 4#8, 5#8, 6#8, 7#8] ∧
      levelOfUidLen 7 = some 2 ∧ levelOfUidLen 10 = some 3 ∧ levelOfUidLen 4 = some 1 := by decide

/-- UncascadeFormLayout, UncascadeThenCascadeRestores: a form of each length, and a sequence that is
none. -/
theorem witness_UncascadeForm :
    uncascade [0x88#8, 1#8, 2#8, 3#8, 4#8, 5#8, 6#8, 7#8] =
        some [1#8, 2#8, 3#8, 4#8, 5#8, 6#8, 7#8] ∧
      uncascade [0x88#8, 1#8, 2#8, 3#8, 0x88#8, 4#8, 5#8, 6#8, 7#8, 8#8, 9#8, 10#8] =
        some [1#8, 2#8, 3#8, 4#8, 5#8, 6#8, 7#8, 8#8, 9#8, 10#8] ∧
      ([] : List Byte).length ≠ 4 ∧ ([] : List Byte).length ≠ 8 ∧ ([] : List Byte).length ≠ 12 := by
  decide

/-- CascadeUidSerialises, CascadeThenUncascadeRestores: each length, and lengths that are none. -/
theorem witness_CascadeLengths :
    (withLen 4).lenNat = 4 ∧ (withLen 7).lenNat = 7 ∧ (withLen 10).lenNat = 10 ∧
      (withLen 8).lenNat ≠ 4 ∧ (withLen 8).lenNat ≠ 7 ∧ (withLen 8).lenNat ≠ 10 := by decide

/-- UncascadeUidDeserialises: 8 bytes with the tag, and without. -/
theorem witness_UncascadeEight :
    (loaded [0x88#8, 1#8, 2#8, 3#8, 4#8, 5#8, 6#8, 7#8]).lenNat = 8 ∧
      (loaded [0x88#8, 1#8, 2#8, 3#8, 4#8, 5#8, 6#8, 7#8]).byteAt 0 = 0x88#8 ∧
      (loaded [0x08#8, 1#8, 2#8, 3#8, 4#8, 5#8, 6#8, 7#8]).byteAt 0 ≠ 0x88#8 := by decide

/-- UncascadeUidDeserialises: 12 bytes with both tags, with the second wrong, and with the first. -/
theorem witness_UncascadeTwelve :
    let s := loaded [0x88#8, 1#8, 2#8, 3#8, 0x88#8, 4#8, 5#8, 6#8, 7#8, 8#8, 9#8, 10#8]
    let t := loaded [0x87#8, 1#8, 2#8, 3#8, 0x87#8, 4#8, 5#8, 6#8, 7#8, 8#8, 9#8, 10#8]
    s.lenNat = 12 ∧ s.byteAt 0 = 0x88#8 ∧ s.byteAt 4 = 0x88#8 ∧
      t.lenNat = 12 ∧ t.byteAt 0 ≠ 0x88#8 ∧ t.byteAt 4 ≠ 0x88#8 := by decide

/-- UncascadeUidDeserialises: the other lengths, inside `BUFCAP` and above. -/
theorem witness_UncascadeLengths :
    (withLen 4).lenNat = 4 ∧ (withLen 7).lenNat ≤ (withLen 7).config.bufcap ∧
      (withLen 7).lenNat ≠ 4 ∧ (withLen 7).lenNat ≠ 8 ∧ (withLen 7).lenNat ≠ 12 ∧
      (withLen 257).config.bufcap < (withLen 257).lenNat := by decide

/-- UncascadeThenCascadeRestores: a success, with a written byte of the form. -/
theorem witness_UncascadeSucceeds :
    ∃ t, exec .uncascadeUid (loaded [0x88#8, 1#8, 2#8, 3#8, 4#8, 5#8, 6#8, 7#8]) = .next t ∧
      t.err = 0x00#8 ∧
      (loaded [0x88#8, 1#8, 2#8, 3#8, 4#8, 5#8, 6#8, 7#8]).buf.read 7 = some 7#8 :=
  ⟨_, rfl, by decide, by decide⟩

/-- OversizedLengthIsInvalidArgument, FirstErrorInOrderIsReported. -/
theorem witness_OversizedLength :
    Instr.uncascadeUid ≠ .nop ∧ Instr.uncascadeUid.isReserved = false ∧
      Instr.reserved09.isReserved = true ∧
      (withLen 257).config.bufcap < (withLen 257).lenNat := by decide

/-- ErrorsLeaveNoPartialResult: a command that ends in an error. -/
theorem witness_ErrorsLeaveNoPartialResult :
    ∃ t, Instr.checkCrcA ≠ .nop ∧ exec .checkCrcA (withLen 1) = .next t ∧ t.err ≠ 0x00#8 :=
  ⟨_, by decide, rfl, by decide⟩

/-- StatusTripleIsRewrittenWhole: a command that is not `NOP`, and a transaction that is no `CMD` write
and no reset. -/
theorem witness_StatusTripleIsRewrittenWhole :
    Instr.crcA ≠ .nop ∧ ∃ t, perform (.regWrite 1 ⟨16, 5#16⟩) State.reset = .next t ∧
      Transaction.regWrite 1 ⟨16, 5#16⟩ ≠ .reset ∧
      ∀ v, Transaction.regWrite 1 ⟨16, 5#16⟩ ≠ .regWrite 0 v :=
  ⟨by decide, _, rfl, by decide, by simp⟩

/-- MatchIsSetExactlyByAGoodCheck: a check that matches. -/
theorem witness_MatchIsSet :
    ∃ t, Instr.checkCrcB ≠ .nop ∧ exec .checkCrcB (loaded [0x00#8, 0x00#8]) = .next t ∧
      t.matchFlag = 1#1 :=
  ⟨_, by decide, rfl, by decide⟩

/-- LevelIsSetOnlyByCascadeCommands: a command that leaves a level. -/
theorem witness_LevelIsSet :
    ∃ t, Instr.cascadeUid ≠ .nop ∧ exec .cascadeUid (withLen 10) = .next t ∧ t.level ≠ 0#2 :=
  ⟨_, by decide, rfl, by decide⟩

/-- CrcRegisterIsWrittenOnlyBySuccess, LenIsWrittenByHostAndFourCommands,
CommandsWriteOnlyInsideTheBuffer: a command that writes all three. -/
theorem witness_AppendWrites :
    ∃ t, exec .appendCrcA State.reset = .next t ∧ t.crc ≠ State.reset.crc ∧
      t.len ≠ State.reset.len ∧ t.buf.read 1 ≠ State.reset.buf.read 1 :=
  ⟨_, rfl, by decide, by decide, by decide⟩

/-- ReadOnlyRegistersIgnoreWrites: the ends of the two ranges of register numbers. -/
theorem witness_RegisterNumbers : 0 ≤ 6 ∧ 6 ≤ 6 ∧ 6 < 7 := by decide

/-- BufWriteThenReadGivesTheByte, UnwrittenByteReadCompletes, IndexBeyondTheBufferIsRefused: the last
index of the buffer and the first beyond it. -/
theorem witness_BufferIndices :
    0 < State.reset.config.bufcap ∧ 255 < State.reset.config.bufcap ∧
      State.reset.buf.read 255 = none ∧ State.reset.config.bufcap ≤ 256 := by decide

/-- TransactionsCompleteExactlyWhenAccepted: one accepted and one refused of each kind that can be. -/
theorem witness_Accepted :
    Transaction.accepted 256 (.regRead 6) = true ∧ Transaction.accepted 256 (.regRead 7) = false ∧
      Transaction.accepted 256 (.regWrite 0 ⟨8, 0x03#8⟩) = true ∧
      Transaction.accepted 256 (.regWrite 0 ⟨16, 0x03#16⟩) = false ∧
      Transaction.accepted 256 (.bufRead 255) = true ∧
      Transaction.accepted 256 (.bufRead 256) = false ∧
      Transaction.accepted 256 (.bufWrite 255 ⟨8, 1#8⟩) = true ∧
      Transaction.accepted 256 (.bufWrite 0 ⟨16, 1#16⟩) = false ∧
      Transaction.accepted 256 .reset = true := by decide

/-- CommandsStraightAfterReset. -/
theorem witness_Reset : ∃ t, perform .reset (loaded [0x50#8]) = .next t := ⟨_, rfl⟩

end Sys2Proof.Tests
end

section
/-! What a command leaves, field by field: `exec_cases` joined with what each body's success is. -/

namespace Sys2Proof.Machine

theorem State.succeeded.err_eq {t : State} {m : BitVec 1} {l : BitVec 2} (h : t.succeeded m l) :
    t.err = 0x00#8 := h.1

theorem State.succeeded.matchFlag_eq {t : State} {m : BitVec 1} {l : BitVec 2}
    (h : t.succeeded m l) : t.matchFlag = m := h.2.1

theorem State.succeeded.level_eq {t : State} {m : BitVec 1} {l : BitVec 2}
    (h : t.succeeded m l) : t.level = l := h.2.2

/-- No command stops: every arm of `exec` answers a next state (R19). -/
theorem exec_completes (i : Instr) (s : State) : ∃ t, exec i s = .next t := by
  cases i <;> exact ⟨_, rfl⟩

/-- The command is one of a pair of the CRC family, `a` with CRC_A or `b` with CRC_B. -/
def UsesCrc (a b i : Instr) (crc : List Byte → Half) : Prop :=
  (i = a ∧ crc = crcA) ∨ (i = b ∧ crc = crcB)

/-- What a command other than `NOP` leaves in the registers and the buffer of `t`, from `s`
(R66 to R71, R90, R91, R112). -/
inductive CommandEffect (i : Instr) (s t : State) : Prop
  | failed (err : isErrorCode t.err) (matchFlag : t.matchFlag = 0#1) (level : t.level = 0#2)
      (crc : t.crc = s.crc) (len : t.len = s.len) (buf : t.buf = s.buf)
  | computed {f : List Byte → Half} (cmd : UsesCrc .crcA .crcB i f)
      (ok : t.succeeded 0#1 0#2)
      (crc : t.crc = f s.payload) (len : t.len = s.len) (buf : t.buf = s.buf)
  | appended {f : List Byte → Half} (cmd : UsesCrc .appendCrcA .appendCrcB i f)
      (fits : s.lenNat + 2 ≤ s.config.bufcap) (ok : t.succeeded 0#1 0#2)
      (crc : t.crc = f s.payload) (len : t.lenNat = s.lenNat + 2)
      (buf : t.buf = s.buf.putAll s.lenNat ((le16 (f s.payload)).map some))
  | checked {f : List Byte → Half} (cmd : UsesCrc .checkCrcA .checkCrcB i f)
      (long : 2 ≤ s.lenNat) (valid : s.lenNat ≤ s.config.bufcap)
      (ok : t.succeeded (matchOf (f s.framePayload) s.frameCrc) 0#2)
      (crc : t.crc = f s.framePayload) (len : t.len = s.len) (buf : t.buf = s.buf)
  | cascaded {level : Nat} (cmd : i = .cascadeUid) (uid : levelOfUidLen s.lenNat = some level)
      (ok : t.succeeded 0#1 (BitVec.ofNat 2 level))
      (crc : t.crc = s.crc) (len : t.lenNat = 4 * level)
      (buf : t.buf =
        s.buf.putAll 0 (addTags (some cascadeTag) (level - 1) (s.buf.contents s.lenNat)))
  | uncascaded {level : Nat} (cmd : i = .uncascadeUid)
      (form : levelOfFormLen s.lenNat = some level)
      (ok : t.succeeded 0#1 (BitVec.ofNat 2 level))
      (crc : t.crc = s.crc) (len : t.lenNat = 3 * level + 1)
      (buf : t.buf = s.buf.putAll 0 (dropTags (level - 1) (s.buf.contents s.lenNat)))

/-- Every command but `NOP` has one of the six effects, and keeps the parameter and the host's
side. -/
theorem exec_effect {i : Instr} {s t : State} (hn : i ≠ .nop) (h : exec i s = .next t) :
    SameHostSide s t ∧ CommandEffect i s t := by
  rcases exec_cases hn h with
    ⟨c, d, hc, rfl⟩ | ⟨hle, ⟨f, hi, rfl⟩ | ⟨f, hi, hfit, rfl⟩ | ⟨f, hi, h2, rfl⟩ |
      ⟨level, hi, hlev, rfl⟩ | ⟨level, hi, hlev, htags, rfl⟩⟩
  · exact ⟨⟨rfl, rfl, rfl⟩, .failed hc rfl rfl rfl rfl rfl⟩
  · obtain ⟨hcrc, hok, hbuf, hlen, hside⟩ := computeCrc_spec f s
    exact ⟨hside, .computed hi hok hcrc hlen hbuf⟩
  · obtain ⟨hcrc, hok, -, -, -, hlen, hside⟩ := appendCrc_spec f s hfit
    exact ⟨hside, .appended hi hfit hok hcrc hlen (by rw [appendCrc_of_fits f s hfit]; rfl)⟩
  · obtain ⟨hcrc, hok, hbuf, hlen, hside⟩ := checkCrc_spec f s h2
    exact ⟨hside, .checked hi h2 hle hok hcrc hlen hbuf⟩
  · obtain ⟨hbuf, hlen, hok, hcrc, -, hside⟩ := cascadeBuf_spec s hlev
    exact ⟨hside, .cascaded hi hlev hok hcrc hlen hbuf⟩
  · obtain ⟨hbuf, hlen, hok, hcrc, hside⟩ := uncascadeBuf_spec s hlev htags
    exact ⟨hside, .uncascaded hi hlev hok hcrc hlen hbuf⟩

/-- No command touches the parameter, the host's queue or the replies. -/
theorem exec_sameHostSide {i : Instr} {s t : State} (h : exec i s = .next t) :
    SameHostSide s t := by
  by_cases hn : i = .nop
  · subst hn; cases h; exact ⟨rfl, rfl, rfl⟩
  · exact (exec_effect hn h).1

/-- A two-bit `LEVEL` holds every level of a cascade command (R18, R85). -/
theorem toNat_ofNat_level {level : Nat} (h : level ≤ 3) :
    (BitVec.ofNat 2 level).toNat = level := by
  rw [BitVec.toNat_ofNat]; omega

/-- A check of a valid length runs the comparison (R70, R71, R115). -/
theorem exec_checkCrc_of_le {i : Instr} {f : List Byte → Half} {s : State}
    (hi : UsesCrc .checkCrcA .checkCrcB i f) (hle : s.lenNat ≤ s.config.bufcap) :
    exec i s = .next (checkCrc f s) := by
  rcases hi with ⟨rfl, rfl⟩ | ⟨rfl, rfl⟩ <;> exact congrArg _ (checkLen_of_le hle _)

end Sys2Proof.Machine
end

section
/-! The invariant: the buffer's part, which a command keeps, and the status triple's part, which
every command but `NOP` establishes afresh (R111). -/

namespace Sys2Proof.Machine

/-- The buffer's part of `State.Inv`: the canonical form, inside `BUFCAP` bytes (R33). -/
def State.BufferLegal (s : State) : Prop := s.buf.wf ∧ s.buf.within s.config.bufcap

/-- The status triple's part of `State.Inv` (R23). -/
def State.StatusLegal (s : State) : Prop :=
  s.err.toNat ≤ 4 ∧ (s.matchFlag = 1#1 → s.err = 0#8 ∧ s.level = 0#2) ∧
    (s.level ≠ 0#2 → s.err = 0#8 ∧ s.matchFlag = 0#1)

theorem inv_iff (s : State) : s.Inv ↔ s.BufferLegal ∧ s.StatusLegal := and_assoc.symm

theorem State.StatusLegal.of_failed {t : State} (herr : isErrorCode t.err)
    (hmatch : t.matchFlag = 0#1) (hlevel : t.level = 0#2) : t.StatusLegal :=
  ⟨isErrorCode_le_four herr, fun h => absurd (hmatch.symm.trans h) (by decide),
    fun h => absurd hlevel h⟩

theorem State.StatusLegal.of_noLevel {t : State} {m : BitVec 1} (h : t.succeeded m 0#2) :
    t.StatusLegal := by
  obtain ⟨herr, -, hlevel⟩ := h
  exact ⟨by simp [herr], fun _ => ⟨herr, hlevel⟩, fun h => absurd hlevel h⟩

theorem State.StatusLegal.of_noMatch {t : State} {l : BitVec 2} (h : t.succeeded 0#1 l) :
    t.StatusLegal := by
  obtain ⟨herr, hmatch, -⟩ := h
  exact ⟨by simp [herr], fun h => absurd (hmatch.symm.trans h) (by decide),
    fun _ => ⟨herr, hmatch⟩⟩

/-- A command leaves a legal status triple, whatever triple it found (R111 to R113). -/
theorem exec_statusLegal {i : Instr} {s t : State} (hn : i ≠ .nop) (h : exec i s = .next t) :
    t.StatusLegal := by
  obtain ⟨-, he⟩ := exec_effect hn h
  cases he with
  | failed err matchFlag level => exact .of_failed err matchFlag level
  | computed _ ok => exact .of_noLevel ok
  | appended _ _ ok => exact .of_noLevel ok
  | checked _ _ _ ok => exact .of_noLevel ok
  | cascaded _ _ ok => exact .of_noMatch ok
  | uncascaded _ _ ok => exact .of_noMatch ok

theorem State.BufferLegal.of_same {s t : State} (hs : s.BufferLegal) (hb : t.buf = s.buf)
    (hc : t.config = s.config) : t.BufferLegal := by
  rw [State.BufferLegal, hb, hc]; exact hs

theorem State.BufferLegal.of_putAll {s t : State} {n : Nat} {cs : List (Option Byte)}
    (hs : s.BufferLegal) (hb : t.buf = s.buf.putAll n cs) (hc : t.config = s.config)
    (hfit : n + cs.length ≤ s.config.bufcap) : t.BufferLegal := by
  obtain ⟨hwf, hin⟩ := hs
  rw [State.BufferLegal, hb, hc]
  exact ⟨Memory.wf_putAll hwf n cs, Memory.within_putAll hin n cs hfit⟩

/-- A command keeps the buffer legal: what it stores fits, as `BUFCAP` is at least 12 (R3, R33). -/
theorem exec_bufferLegal {i : Instr} {s t : State} (hn : i ≠ .nop) (h : exec i s = .next t)
    (hs : s.BufferLegal) : t.BufferLegal := by
  obtain ⟨⟨hc, -, -⟩, he⟩ := exec_effect hn h
  have hcap := s.config.atLeast
  cases he with
  | failed _ _ _ _ _ buf => exact hs.of_same buf hc
  | computed _ _ _ _ buf => exact hs.of_same buf hc
  | appended _ fits _ _ _ buf => exact hs.of_putAll buf hc (by simpa [le16] using fits)
  | checked _ _ _ _ _ _ buf => exact hs.of_same buf hc
  | cascaded _ uid _ _ _ buf =>
    have hl := uidLen_of_level uid
    refine hs.of_putAll buf hc ?_
    rw [length_addTags _ _ _ (by simp; omega), Memory.length_contents]; omega
  | uncascaded _ form _ _ _ buf =>
    have hl := formLen_of_level form
    refine hs.of_putAll buf hc ?_
    rw [length_dropTags _ _ (by simp; omega), Memory.length_contents]; omega

theorem exec_inv {i : Instr} {s t : State} (hs : s.Inv) (h : exec i s = .next t) : t.Inv := by
  by_cases hn : i = .nop
  · subst hn; cases h; exact hs
  · exact (inv_iff t).2
      ⟨exec_bufferLegal hn h ((inv_iff s).1 hs).1, exec_statusLegal hn h⟩

theorem resetBlock_inv (s : State) : (resetBlock s).Inv :=
  (inv_iff _).2 ⟨⟨Memory.wf_nil, by simp⟩, .of_noLevel (m := 0#1) ⟨rfl, rfl, rfl⟩⟩

/-- Every transaction keeps the invariant (R20, R23). -/
theorem perform_inv {tr : Transaction} {s t : State} (hs : s.Inv) (h : perform tr s = .next t) :
    t.Inv := by
  rcases perform_cases h with ⟨n, r, -, -, rfl⟩ | ⟨op, -, hx⟩ | ⟨v, -, rfl⟩ |
    ⟨n, v, -, -, -, rfl⟩ | ⟨j, -, hj, rfl⟩ | ⟨j, b, -, hj, rfl⟩ | ⟨-, rfl⟩
  · exact hs
  · exact exec_inv hs hx
  · exact hs
  · exact hs
  · simpa [State.Inv] using hs
  · obtain ⟨hwf, hin, hstatus⟩ := hs
    exact ⟨Memory.wf_write hwf j b, Memory.within_write hin hj b, hstatus⟩
  · exact resetBlock_inv s

/-- Settles O52: an idle step stands still, and any other performs the oldest transaction. -/
theorem everyStepKeepsTheInvariant : Obligations.EveryStepKeepsTheInvariant := by
  intro s s' hs h
  rcases step_cases h with ⟨-, rfl⟩ | ⟨tr, rest, -, hp⟩
  · exact hs
  · exact perform_inv (s := { s with pending := rest }) hs hp

end Sys2Proof.Machine
end

section
/-! What a command does not read: its result does not depend on the status triple, and depends on
`CRC` at most by leaving it alone. -/

namespace Sys2Proof.Machine

/-- The state with another status triple. -/
def State.withStatus (s : State) (e : Byte) (m : BitVec 1) (l : BitVec 2) : State :=
  { s with err := e, matchFlag := m, level := l }

/-- The state with another value of `CRC`. -/
def State.withCrc (s : State) (c : Half) : State := { s with crc := c }

theorem afterReading_withStatus (s : State) (is : List Nat) (e : Byte) (m : BitVec 1)
    (l : BitVec 2) :
    (s.withStatus e m l).afterReading is = (s.afterReading is).withStatus e m l := by
  simp only [State.afterReading, apply_ite (State.withStatus · e m l)]; rfl

theorem afterReading_withCrc (s : State) (is : List Nat) (c : Half) :
    (s.withCrc c).afterReading is = (s.afterReading is).withCrc c := by
  simp only [State.afterReading, apply_ite (State.withCrc · c)]; rfl

/-! ### The status triple -/

/-- A body that writes the status triple whole and reads none of it (R111). -/
def StatusBlind (body : State → State) : Prop :=
  ∀ (s : State) (e : Byte) (m : BitVec 1) (l : BitVec 2), body (s.withStatus e m l) = body s

theorem StatusBlind.checkLen {body : State → State} (h : StatusBlind body) :
    StatusBlind (checkLen · body) := fun s e m l =>
  congrArg (fun u => if s.config.bufcap < s.lenNat then raise .invalidArgument s else u) (h s e m l)

theorem statusBlind_computeCrc (crc : List Byte → Half) : StatusBlind (computeCrc crc) := by
  intro s e m l
  rw [computeCrc, afterReading_withStatus]; rfl

theorem statusBlind_appendCrc (crc : List Byte → Half) : StatusBlind (appendCrc crc) := by
  intro s e m l
  rw [appendCrc, afterReading_withStatus]; rfl

theorem statusBlind_checkCrc (crc : List Byte → Half) : StatusBlind (checkCrc crc) := by
  intro s e m l
  rw [checkCrc, afterReading_withStatus]; rfl

theorem statusBlind_cascadeBuf : StatusBlind cascadeBuf := fun _ _ _ _ => rfl

theorem statusBlind_uncascadeBuf : StatusBlind uncascadeBuf := by
  intro s e m l
  simp only [uncascadeBuf, afterReading_withStatus]; rfl

/-! ### `CRC` -/

/-- A body that reads no `CRC`: with another value of it the result is the same, but for `CRC`
itself where the body leaves it (R13, R77). -/
def CrcBlind (body : State → State) : Prop :=
  ∀ (s : State) (c : Half), body (s.withCrc c) = body s ∨
    ((body s).crc = s.crc ∧ body (s.withCrc c) = (body s).withCrc c)

theorem crcBlind_failedWith (code : Byte) : CrcBlind (State.failedWith · code) :=
  fun _ _ => .inr ⟨rfl, rfl⟩

theorem CrcBlind.checkLen {body : State → State} (h : CrcBlind body) :
    CrcBlind (checkLen · body) := by
  intro s c
  rcases Nat.lt_or_ge s.config.bufcap s.lenNat with hlt | hle
  · simp only [checkLen_of_lt hlt, checkLen_of_lt (s := s.withCrc c) hlt]
    exact crcBlind_failedWith _ s c
  · simp only [checkLen_of_le hle, checkLen_of_le (s := s.withCrc c) hle]
    exact h s c

theorem crcBlind_computeCrc (crc : List Byte → Half) : CrcBlind (computeCrc crc) := by
  intro s c
  left
  rw [computeCrc, afterReading_withCrc]; rfl

theorem crcBlind_appendCrc (crc : List Byte → Half) : CrcBlind (appendCrc crc) := by
  intro s c
  rcases Nat.lt_or_ge s.config.bufcap (s.lenNat + 2) with hlt | hle
  · rw [appendCrc_of_short crc s hlt, appendCrc_of_short crc (s.withCrc c) hlt]
    exact crcBlind_failedWith _ s c
  · left
    rw [appendCrc_of_fits crc s hle, appendCrc_of_fits crc (s.withCrc c) hle,
      afterReading_withCrc]; rfl

theorem crcBlind_checkCrc (crc : List Byte → Half) : CrcBlind (checkCrc crc) := by
  intro s c
  rcases Nat.lt_or_ge s.lenNat 2 with hlt | hle
  · rw [checkCrc_of_short crc s hlt, checkCrc_of_short crc (s.withCrc c) hlt]
    exact crcBlind_failedWith _ s c
  · left
    have hnot : ¬ s.lenNat < 2 := by omega
    have hnot' : ¬ (s.withCrc c).lenNat < 2 := hnot
    rw [checkCrc, if_neg hnot', checkCrc, if_neg hnot, afterReading_withCrc]; rfl

theorem crcBlind_cascadeBuf : CrcBlind cascadeBuf := by
  intro s c
  cases h : levelOfUidLen s.lenNat with
  | none =>
    rw [cascadeBuf_of_badLen s h, cascadeBuf_of_badLen (s.withCrc c) h]
    exact crcBlind_failedWith _ s c
  | some level =>
    have h' : levelOfUidLen (s.withCrc c).lenNat = some level := h
    right
    rw [cascadeBuf, cascadeBuf, h, h']
    exact ⟨rfl, rfl⟩

theorem crcBlind_uncascadeBuf : CrcBlind uncascadeBuf := by
  intro s c
  cases h : levelOfFormLen s.lenNat with
  | none =>
    rw [uncascadeBuf_of_badLen s h, uncascadeBuf_of_badLen (s.withCrc c) h]
    exact crcBlind_failedWith _ s c
  | some level =>
    have h' : levelOfFormLen (s.withCrc c).lenNat = some level := h
    right
    by_cases ht : ∀ i ∈ tagIndices level, s.byteAt i = cascadeTag
    · obtain ⟨-, -, -, hcrc, -⟩ := uncascadeBuf_spec s h ht
      refine ⟨hcrc, ?_⟩
      have hall : ((tagIndices level).all fun i => s.byteAt i == cascadeTag) = true := by
        simpa using ht
      have hall' : ((tagIndices level).all fun i => (s.withCrc c).byteAt i == cascadeTag) = true :=
        hall
      simp only [uncascadeBuf, h, h', if_pos hall, if_pos hall', afterReading_withCrc]
      rfl
    · rw [uncascadeBuf_of_badTag s h ht, uncascadeBuf_of_badTag (s.withCrc c) h' ht,
        afterReading_withCrc]
      exact ⟨by simp, rfl⟩

/-! ### All commands -/

/-- Every command but `NOP` is a change of the state that reads neither the status triple nor
`CRC`. -/
theorem exec_body {i : Instr} (hn : i ≠ .nop) :
    ∃ body, (∀ s, exec i s = .next (body s)) ∧ StatusBlind body ∧ CrcBlind body := by
  have checked {body : State → State} (hb : ∀ s, exec i s = .next (checkLen s body))
      (hs : StatusBlind body) (hc : CrcBlind body) :
      ∃ body, (∀ s, exec i s = .next (body s)) ∧ StatusBlind body ∧ CrcBlind body :=
    ⟨_, hb, hs.checkLen, hc.checkLen⟩
  have reserved (hr : i.isReserved = true) :
      ∃ body, (∀ s, exec i s = .next (body s)) ∧ StatusBlind body ∧ CrcBlind body :=
    ⟨_, exec_of_reserved hr, fun _ _ _ _ => rfl, crcBlind_failedWith _⟩
  cases i with
  | nop => exact absurd rfl hn
  | crcA => exact checked (fun _ => rfl) (statusBlind_computeCrc _) (crcBlind_computeCrc _)
  | crcB => exact checked (fun _ => rfl) (statusBlind_computeCrc _) (crcBlind_computeCrc _)
  | appendCrcA => exact checked (fun _ => rfl) (statusBlind_appendCrc _) (crcBlind_appendCrc _)
  | appendCrcB => exact checked (fun _ => rfl) (statusBlind_appendCrc _) (crcBlind_appendCrc _)
  | checkCrcA => exact checked (fun _ => rfl) (statusBlind_checkCrc _) (crcBlind_checkCrc _)
  | checkCrcB => exact checked (fun _ => rfl) (statusBlind_checkCrc _) (crcBlind_checkCrc _)
  | cascadeUid => exact checked (fun _ => rfl) statusBlind_cascadeBuf crcBlind_cascadeBuf
  | uncascadeUid => exact checked (fun _ => rfl) statusBlind_uncascadeBuf crcBlind_uncascadeBuf
  | reserved09 => exact reserved rfl
  | reserved0A0B => exact reserved rfl
  | reserved0C0F => exact reserved rfl
  | reserved101F => exact reserved rfl
  | reserved203F => exact reserved rfl
  | reserved407F => exact reserved rfl
  | reserved80FF => exact reserved rfl

/-- No command but `NOP` reads the status triple (R111). -/
theorem exec_withStatus {i : Instr} (hn : i ≠ .nop) (s : State) (e : Byte) (m : BitVec 1)
    (l : BitVec 2) : exec i (s.withStatus e m l) = exec i s := by
  obtain ⟨body, hbody, hblind, -⟩ := exec_body hn
  rw [hbody, hbody, hblind]

end Sys2Proof.Machine
end

section
/-! What each register of the block is written by (spec/10_state.md R12, R13, R17, R18). -/

namespace Sys2Proof.Machine

/-- `MATCH` is 1 after a command only by a check that found the trailing bytes equal to the CRC. -/
theorem CommandEffect.check_of_match {i : Instr} {s t : State} (he : CommandEffect i s t)
    (hm : t.matchFlag = 1#1) :
    2 ≤ s.lenNat ∧ s.lenNat ≤ s.config.bufcap ∧
      ∃ f, UsesCrc .checkCrcA .checkCrcB i f ∧ f s.framePayload = s.frameCrc := by
  have cleared (h0 : t.matchFlag = 0#1) : False := absurd (h0.symm.trans hm) (by decide)
  cases he with
  | failed _ matchFlag => exact (cleared matchFlag).elim
  | computed _ ok => exact (cleared ok.matchFlag_eq).elim
  | appended _ _ ok => exact (cleared ok.matchFlag_eq).elim
  | checked cmd long valid ok =>
    exact ⟨long, valid, _, cmd, (matchOf_eq_one_iff _ _).1 (ok.matchFlag_eq.symm.trans hm)⟩
  | cascaded _ _ ok => exact (cleared ok.matchFlag_eq).elim
  | uncascaded _ _ ok => exact (cleared ok.matchFlag_eq).elim

/-- A check of a frame that can hold a CRC, and holds the right one, sets `MATCH`. -/
theorem match_of_check {i : Instr} {f : List Byte → Half} {s t : State}
    (hi : UsesCrc .checkCrcA .checkCrcB i f) (h : exec i s = .next t) (h2 : 2 ≤ s.lenNat)
    (hle : s.lenNat ≤ s.config.bufcap) (hgood : f s.framePayload = s.frameCrc) :
    t.matchFlag = 1#1 := by
  rw [exec_checkCrc_of_le hi hle] at h
  cases h
  obtain ⟨-, ⟨-, hmatch, -⟩, -⟩ := checkCrc_spec f s h2
  rw [hmatch, matchOf_eq_one_iff]
  exact hgood

/-- Settles O35: one direction reads the command's effect, the other runs the check. -/
theorem matchIsSetExactlyByAGoodCheck : Obligations.MatchIsSetExactlyByAGoodCheck := by
  refine ⟨fun i s t hn h => ⟨fun hm => ?_, ?_⟩, fun i s m hn => ?_, fun _ => rfl, rfl⟩
  · obtain ⟨-, he⟩ := exec_effect hn h
    obtain ⟨h2, hle, f, ⟨rfl, rfl⟩ | ⟨rfl, rfl⟩, hgood⟩ := he.check_of_match hm
    · exact ⟨h2, hle, .inl ⟨rfl, hgood⟩⟩
    · exact ⟨h2, hle, .inr ⟨rfl, hgood⟩⟩
  · rintro ⟨h2, hle, ⟨hi, hgood⟩ | ⟨hi, hgood⟩⟩
    · exact match_of_check (.inl ⟨hi, rfl⟩) h h2 hle hgood
    · exact match_of_check (.inr ⟨hi, rfl⟩) h h2 hle hgood
  · exact exec_withStatus hn s s.err m s.level

/-- Settles O36: of the effects of a command only the two cascade ones leave a level. -/
theorem levelIsSetOnlyByCascadeCommands : Obligations.LevelIsSetOnlyByCascadeCommands := by
  intro i s t hn h hlevel
  obtain ⟨-, he⟩ := exec_effect hn h
  cases he with
  | failed _ _ level => exact absurd level hlevel
  | computed _ ok => exact absurd ok.level_eq hlevel
  | appended _ _ ok => exact absurd ok.level_eq hlevel
  | checked _ _ _ ok => exact absurd ok.level_eq hlevel
  | @cascaded level cmd uid ok _ len =>
    obtain ⟨-, -, hle⟩ := uidLen_of_level uid
    obtain ⟨herr, hmatch, hl⟩ := ok
    rw [hl, toNat_ofNat_level hle]
    exact ⟨herr, hmatch, .inl ⟨cmd, uid, len⟩⟩
  | @uncascaded level cmd form ok _ len =>
    obtain ⟨-, hpos, hle⟩ := formLen_of_level form
    obtain ⟨herr, hmatch, hl⟩ := ok
    rw [hl, toNat_ofNat_level hle]
    exact ⟨herr, hmatch, .inr ⟨cmd, form, levelOfUidLen_eq_some.2 (by omega)⟩⟩

/-- Settles O37, by the six effects a command can have. -/
theorem crcRegisterIsWrittenOnlyBySuccess : Obligations.CrcRegisterIsWrittenOnlyBySuccess := by
  intro i s t h
  by_cases hn : i = .nop
  · subst hn; cases h; exact .inl rfl
  obtain ⟨-, he⟩ := exec_effect hn h
  cases he with
  | failed _ _ _ crc => exact .inl crc
  | computed cmd ok crc =>
    rcases cmd with ⟨hi, rfl⟩ | ⟨hi, rfl⟩
    · exact .inr ⟨ok.err_eq, .inl ⟨.inl hi, crc⟩⟩
    · exact .inr ⟨ok.err_eq, .inr (.inl ⟨.inl hi, crc⟩)⟩
  | appended cmd _ ok crc =>
    rcases cmd with ⟨hi, rfl⟩ | ⟨hi, rfl⟩
    · exact .inr ⟨ok.err_eq, .inl ⟨.inr hi, crc⟩⟩
    · exact .inr ⟨ok.err_eq, .inr (.inl ⟨.inr hi, crc⟩)⟩
  | checked cmd _ _ ok crc =>
    rcases cmd with ⟨hi, rfl⟩ | ⟨hi, rfl⟩
    · exact .inr ⟨ok.err_eq, .inr (.inr (.inl ⟨hi, crc⟩))⟩
    · exact .inr ⟨ok.err_eq, .inr (.inr (.inr ⟨hi, crc⟩))⟩
  | cascaded _ _ _ crc => exact .inl crc
  | uncascaded _ _ _ crc => exact .inl crc

/-- Settles O38: every command is a `CrcBlind` change of the state. -/
theorem crcRegisterIsNeverRead : Obligations.CrcRegisterIsNeverRead := by
  intro i s c
  by_cases hn : i = .nop
  · subst hn; exact ⟨s, rfl, .inr ⟨rfl, rfl⟩⟩
  obtain ⟨body, hbody, -, hblind⟩ := exec_body hn
  refine ⟨body s, hbody s, ?_⟩
  rw [hbody]
  exact (hblind s c).imp (congrArg _) (And.imp_right (congrArg _))

/-- Settles O39: what the four commands store fits `BUFCAP`, which is at least 12 (R3). -/
theorem lenIsWrittenByHostAndFourCommands : Obligations.LenIsWrittenByHostAndFourCommands := by
  refine ⟨fun _ _ => rfl, fun i s t h hlen => ?_⟩
  by_cases hn : i = .nop
  · subst hn; cases h; exact absurd rfl hlen
  obtain ⟨-, he⟩ := exec_effect hn h
  have hcap := s.config.atLeast
  cases he with
  | failed _ _ _ _ len => exact absurd len hlen
  | computed _ _ _ len => exact absurd len hlen
  | appended cmd fits ok _ len =>
    refine ⟨?_, ok.err_eq, by omega⟩
    rcases cmd with ⟨hi, -⟩ | ⟨hi, -⟩ <;> simp [hi]
  | checked _ _ _ _ _ len => exact absurd len hlen
  | cascaded cmd uid ok _ len =>
    obtain ⟨-, -, hle⟩ := uidLen_of_level uid
    exact ⟨by simp [cmd], ok.err_eq, by omega⟩
  | uncascaded cmd form ok _ len =>
    obtain ⟨-, -, hle⟩ := formLen_of_level form
    exact ⟨by simp [cmd], ok.err_eq, by omega⟩

/-- Settles O40. -/
theorem everyCommandCompletes : Obligations.EveryCommandCompletes := by
  intro i s
  obtain ⟨t, h⟩ := exec_completes i s
  exact ⟨t, h, exec_sameHostSide h⟩

end Sys2Proof.Machine
end

section
/-! The host's transactions (spec/10_state.md R14, R15, R20). -/

namespace Sys2Proof.Machine

/-! ### The buffer -/

/-- To write the same byte again changes nothing. -/
theorem Memory.write_write_same (m : Memory) (i : Nat) (b : Byte) :
    (m.write i b).write i b = m.write i b := by
  induction m with
  | nil => simp [Memory.write]
  | cons c m ih =>
    obtain ⟨a, v⟩ := c
    rcases lt_trichotomy i a with hlt | rfl | hgt
    · simp [Memory.write, hlt]
    · simp [Memory.write]
    · have hnot : ¬ i < a := by omega
      have hne : i ≠ a := by omega
      simp [Memory.write, hnot, hne, ih]

theorem bufWrite_of_lt {s : State} {i : Nat} (hi : i < s.config.bufcap) (b : Byte) :
    bufWrite i ⟨8, b⟩ s = .next { s with buf := s.buf.write i b } := by
  rw [bufWrite, if_pos hi, ofWidth_self]

theorem bufRead_of_lt {s : State} {i : Nat} (hi : i < s.config.bufcap) :
    bufRead i s = .next ((s.afterReading [i]).reply ⟨8, s.byteAt i⟩) := by
  rw [bufRead, if_pos hi]

/-- A read of a written byte replies with it and has no other effect (R37). -/
theorem bufRead_of_written {s : State} {i : Nat} {b : Byte} (hi : i < s.config.bufcap)
    (hb : s.buf.read i = some b) : bufRead i s = .next (s.reply ⟨8, b⟩) := by
  rw [bufRead_of_lt hi, afterReading_of_written _ _ (by simp [Memory.written, hb]),
    byteAt_of_read hb]

/-- Settles O45, by the buffer's rules for a read, and a write, after a write. -/
theorem bufWriteThenReadGivesTheByte : Obligations.BufWriteThenReadGivesTheByte := by
  intro s i b hi
  refine ⟨{ s with buf := s.buf.write i b }, bufWrite_of_lt hi b, ?_, fun a ha => ?_, rfl, ?_, ?_⟩
  · exact Memory.read_write_same _ i b
  · exact Memory.read_write_other _ b ha.symm
  · exact bufRead_of_written hi (Memory.read_write_same _ i b)
  · exact (bufWrite_of_lt (s := { s with buf := s.buf.write i b }) hi b).trans
      (by rw [Memory.write_write_same])

/-! ### Acceptance (R20, R124) -/

theorem ofNumber_isSome_of_le {n : Nat} (h : n ≤ 6) : ∃ r, Reg.ofNumber n = some r :=
  Option.ne_none_iff_exists'.1 fun h' => absurd ((ofNumber_eq_none_iff n).1 h') (by omega)

theorem regRead_of_some {n : Nat} {r : Reg} (h : Reg.ofNumber n = some r) (s : State) :
    regRead n s = .next (s.reply (s.regValue r)) := by
  rw [regRead, h]

theorem regRead_of_none {n : Nat} (h : Reg.ofNumber n = none) (s : State) :
    regRead n s = .refused (.noSuchRegister n) := by
  rw [regRead, h]

theorem regWrite_of_none {n : Nat} (h : Reg.ofNumber n = none) (v : Datum) (s : State) :
    regWrite n v s = .refused (.noSuchRegister n) := by
  rw [regWrite, h]

theorem regWrite_of_width {n : Nat} {r : Reg} (h : Reg.ofNumber n = some r) (v : BitVec r.width)
    (s : State) : regWrite n ⟨r.width, v⟩ s = writeReg r v s := by
  simp only [regWrite, h, ofWidth_self]

theorem regWrite_of_wrongWidth {n : Nat} {r : Reg} {v : Datum} (h : Reg.ofNumber n = some r)
    (hw : v.width ≠ r.width) (s : State) :
    regWrite n v s = .refused (.wrongWidth r.width v.width) := by
  simp only [regWrite, h, (ofWidth_eq_none_iff r.width v).2 hw]

/-- A write of a register, at its width, completes: the one that starts a command by
`exec_completes`. -/
theorem writeReg_completes (r : Reg) (v : BitVec r.width) (s : State) :
    ∃ t, writeReg r v s = .next t := by
  cases r with
  | cmd => exact exec_completes (decode v) s
  | len => exact ⟨_, rfl⟩
  | crc => exact ⟨_, rfl⟩
  | err => exact ⟨_, rfl⟩
  | flags => exact ⟨_, rfl⟩
  | level => exact ⟨_, rfl⟩
  | cap => exact ⟨_, rfl⟩

theorem bufWrite_of_wrongWidth {s : State} {i : Nat} {v : Datum} (hi : i < s.config.bufcap)
    (hw : v.width ≠ 8) : bufWrite i v s = .refused (.wrongWidth 8 v.width) := by
  rw [bufWrite, if_pos hi, (ofWidth_eq_none_iff 8 v).2 hw]

theorem bufWrite_of_le {s : State} {i : Nat} (hi : s.config.bufcap ≤ i) (v : Datum) :
    bufWrite i v s = .refused (.noSuchIndex i) := by
  rw [bufWrite, if_neg (by omega)]

theorem bufRead_of_le {s : State} {i : Nat} (hi : s.config.bufcap ≤ i) :
    bufRead i s = .refused (.noSuchIndex i) := by
  rw [bufRead, if_neg (by omega)]

/-- A transaction whose precondition holds answers a next state. -/
theorem perform_of_accepted {tr : Transaction} {s : State}
    (h : tr.accepted s.config.bufcap = true) : ∃ t, perform tr s = .next t := by
  cases tr with
  | regRead n =>
    obtain ⟨r, hr⟩ := ofNumber_isSome_of_le (of_decide_eq_true h)
    exact ⟨_, regRead_of_some hr s⟩
  | regWrite n v =>
    obtain ⟨w, v⟩ := v
    cases hr : Reg.ofNumber n with
    | none => simp [Transaction.accepted, hr] at h
    | some r =>
      obtain rfl : w = r.width := by simpa [Transaction.accepted, hr] using h
      obtain ⟨t, ht⟩ := writeReg_completes r v s
      exact ⟨t, (regWrite_of_width hr v s).trans ht⟩
  | bufRead i => exact ⟨_, bufRead_of_lt (of_decide_eq_true h)⟩
  | bufWrite i v =>
    obtain ⟨w, v⟩ := v
    obtain ⟨hi, rfl⟩ : i < s.config.bufcap ∧ w = 8 := by simpa [Transaction.accepted] using h
    exact ⟨_, bufWrite_of_lt hi v⟩
  | reset => exact ⟨_, rfl⟩

/-- A transaction whose precondition does not hold is refused. -/
theorem perform_of_not_accepted {tr : Transaction} {s : State}
    (h : tr.accepted s.config.bufcap = false) : ∃ r, perform tr s = .refused r := by
  cases tr with
  | regRead n =>
    have hn : 6 < n := by simpa [Transaction.accepted] using h
    exact ⟨_, regRead_of_none ((ofNumber_eq_none_iff n).2 hn) s⟩
  | regWrite n v =>
    cases hr : Reg.ofNumber n with
    | none => exact ⟨_, regWrite_of_none hr v s⟩
    | some r =>
      have hw : v.width ≠ r.width := by simpa [Transaction.accepted, hr] using h
      exact ⟨_, regWrite_of_wrongWidth hr hw s⟩
  | bufRead i => exact ⟨_, bufRead_of_le (by simpa [Transaction.accepted] using h)⟩
  | bufWrite i v =>
    rcases Nat.lt_or_ge i s.config.bufcap with hi | hi
    · have hw : v.width ≠ 8 := by simpa [Transaction.accepted, hi] using h
      exact ⟨_, bufWrite_of_wrongWidth hi hw⟩
    · exact ⟨_, bufWrite_of_le hi v⟩
  | reset => cases h

/-- Settles O47. -/
theorem transactionsCompleteExactlyWhenAccepted :
    Obligations.TransactionsCompleteExactlyWhenAccepted :=
  fun _ _ => ⟨perform_of_accepted, perform_of_not_accepted⟩

/-! ### The command register -/

/-- The decoder gives back a well-formed command from its code (R45, R47): a range row's codes are
tried one by one. -/
theorem decode_encode {i : Instr} (h : i.wf = true) : decode (encode i) = i := by
  cases i with
  | reserved0A0B c => revert c; decide
  | reserved0C0F c => revert c; decide
  | reserved101F c => revert c; decide
  | reserved203F c => revert c; decide
  | reserved407F c => revert c; decide
  | reserved80FF c => revert c; decide
  | nop | crcA | crcB | appendCrcA | appendCrcB | checkCrcA | checkCrcB | cascadeUid
    | uncascadeUid | reserved09 => rfl

/-- Settles O3: the step performs the write of `CMD`, which decodes the code. -/
theorem stepRunsTheWrittenCommand : Obligations.StepRunsTheWrittenCommand := by
  refine ⟨fun s i rest hi hp => ?_, fun s op => ?_⟩
  · rw [step_of_pending hp]
    exact (exec_cmdWrite (encode i) _).trans (by rw [decode_encode hi])
  · rw [step_of_pending (withFetchWord_pending s 8 op.toNat), exec_cmdWrite, BitVec.ofNat_toNat,
      BitVec.setWidth_eq]
    rfl

/-! ### The register file -/

/-- Settles O43: the reply is the value `State.regValue` gives the register of that number. -/
theorem regReadRepliesTheRegister : Obligations.RegReadRepliesTheRegister := fun s =>
  have read (r : Reg) : perform (.regRead r.number) s = .next (s.reply (s.regValue r)) :=
    regRead_of_some (ofNumber_number r) s
  ⟨read .cmd, read .len, read .crc, read .err, read .flags, read .level,
    s.capValue, capValue_toNat s, read .cap⟩

/-- Settles O44, by what `RegRead` and `RegWrite` do with a register's number. -/
theorem readOnlyRegistersIgnoreWrites : Obligations.ReadOnlyRegistersIgnoreWrites := by
  intro s
  have write (r : Reg) (v : BitVec r.width) :
      perform (.regWrite r.number ⟨r.width, v⟩) s = writeReg r v s :=
    regWrite_of_width (ofNumber_number r) v s
  refine ⟨fun v => ⟨write .crc v, write .cap v⟩,
    fun v => ⟨write .err v, write .flags v, write .level v⟩, fun n hn => ?_, fun n hn => ?_⟩
  · obtain ⟨r, hr⟩ := ofNumber_isSome_of_le hn
    exact ⟨_, regRead_of_some hr s⟩
  · have hnone := (ofNumber_eq_none_iff n).2 hn
    exact ⟨regRead_of_none hnone s, fun v => regWrite_of_none hnone v s⟩

end Sys2Proof.Machine
end

section
/-! The bytes of a 16-bit value, low byte first (spec/20_memory.md R34), and what the CRC of a sequence
becomes when two more bytes follow it (spec/40_crc.md section 3). -/

namespace Sys2Proof.Machine

/-! ### Byte order -/

theorem extractLsb'_zero_fromLe16 (b0 b1 : Byte) : (fromLe16 b0 b1).extractLsb' 0 8 = b0 := by
  ext i hi
  have h16 : i < 16 := by omega
  simp [fromLe16, hi, h16]

theorem extractLsb'_eight_fromLe16 (b0 b1 : Byte) : (fromLe16 b0 b1).extractLsb' 8 8 = b1 := by
  ext i hi
  have h16 : 8 + i < 16 := by omega
  simp [fromLe16, h16, BitVec.getLsbD_eq_getElem hi]

theorem le16_fromLe16 (b0 b1 : Byte) : le16 (fromLe16 b0 b1) = [b0, b1] := by
  rw [le16, extractLsb'_zero_fromLe16, extractLsb'_eight_fromLe16]

/-- Settles O13. -/
theorem littleEndianRoundTrip : Obligations.LittleEndianRoundTrip :=
  ⟨fun v => ⟨rfl, fromLe16_le16 v⟩, le16_fromLe16⟩

/-! ### The update is linear -/

theorem crc16Step_of_even {c : Half} (h : c.getLsbD 0 = false) : crc16Step c = c >>> 1 := by
  rw [crc16Step, h]; rfl

theorem crc16Step_of_odd {c : Half} (h : c.getLsbD 0 = true) :
    crc16Step c = (c >>> 1) ^^^ crcPoly := by
  rw [crc16Step, h]; rfl

/-- One turn is linear over exclusive or: the polynomial is folded in for the bit that leaves, and
twice is not at all. -/
theorem crc16Step_xor (a b : Half) : crc16Step (a ^^^ b) = crc16Step a ^^^ crc16Step b := by
  have hbit : (a ^^^ b).getLsbD 0 = (a.getLsbD 0 ^^ b.getLsbD 0) := BitVec.getLsbD_xor
  have hshift : (a ^^^ b) >>> 1 = a >>> 1 ^^^ b >>> 1 := BitVec.ushiftRight_xor_distrib a b 1
  cases ha : a.getLsbD 0 <;> cases hb : b.getLsbD 0 <;> rw [ha, hb] at hbit
  · rw [crc16Step_of_even hbit, crc16Step_of_even ha, crc16Step_of_even hb, hshift]
  · rw [crc16Step_of_odd hbit, crc16Step_of_even ha, crc16Step_of_odd hb, hshift, BitVec.xor_assoc]
  · rw [crc16Step_of_odd hbit, crc16Step_of_odd ha, crc16Step_of_even hb, hshift]; ac_rfl
  · rw [crc16Step_of_even hbit, crc16Step_of_odd ha, crc16Step_of_odd hb, hshift]
    calc a >>> 1 ^^^ b >>> 1
        = (a >>> 1 ^^^ b >>> 1) ^^^ (crcPoly ^^^ crcPoly) := by simp
      _ = _ := by ac_rfl

theorem crc16Steps_xor (n : Nat) (a b : Half) :
    crc16Steps n (a ^^^ b) = crc16Steps n a ^^^ crc16Steps n b := by
  induction n generalizing a b with
  | zero => rfl
  | succ n ih => simp only [crc16Steps, crc16Step_xor, ih]

/-- As long as the bits that leave are 0, the turns only shift. -/
theorem crc16Steps_eq_shift {n : Nat} {c : Half} (h : ∀ k < n, c.getLsbD k = false) :
    crc16Steps n c = c >>> n := by
  induction n generalizing c with
  | zero => simp [crc16Steps]
  | succ n ih =>
    rw [crc16Steps, crc16Step_of_even (h 0 (by omega)),
      ih fun k hk => by simpa using h (1 + k) (by omega), ← BitVec.shiftRight_add, Nat.add_comm]

/-! ### The residues -/

/-- A register's own low byte cancels its lower half, and the turns bring down the upper half. -/
theorem crc16Update_low (c : Half) : crc16Update c (c.extractLsb' 0 8) = c >>> 8 := by
  have hlow : ∀ k < 8, (c ^^^ (c.extractLsb' 0 8).setWidth 16).getLsbD k = false := fun k hk => by
    simp [hk, show k < 16 by omega]
  have hhigh : (c.extractLsb' 0 8).setWidth 16 >>> 8 = 0#16 := by
    ext k hk
    simp
  rw [crc16Update, crc16Steps_eq_shift hlow, BitVec.ushiftRight_xor_distrib, hhigh,
    BitVec.xor_zero]

theorem setWidth_extractLsb'_eight (c : Half) : (c.extractLsb' 8 8).setWidth 16 = c >>> 8 := by
  ext k hk
  by_cases h : k < 8
  · simp [h]
  · simp [h, show 16 ≤ 8 + k by omega]

/-- The update is linear in the register and the byte together. -/
theorem crc16Update_xor (c d : Half) (a b : Byte) :
    crc16Update (c ^^^ d) (a ^^^ b) = crc16Update c a ^^^ crc16Update d b := by
  rw [crc16Update, crc16Update, crc16Update, ← crc16Steps_xor, BitVec.setWidth_xor]
  congr 1; ac_rfl

/-- The CRC is linear in the register and two bytes together. -/
theorem crc16Raw_le16_xor (c d v w : Half) :
    crc16Raw (c ^^^ d) (le16 (v ^^^ w)) = crc16Raw c (le16 v) ^^^ crc16Raw d (le16 w) := by
  simp [le16, crc16Update_xor, BitVec.extractLsb'_xor]

/-- The register's own two bytes, low byte first, bring it to zero. -/
theorem crc16Raw_le16_self (c : Half) : crc16Raw c (le16 c) = 0x0000#16 := by
  calc crc16Raw c (le16 c)
      = crc16Update (crc16Update c (c.extractLsb' 0 8)) (c.extractLsb' 8 8) := rfl
    _ = crc16Steps 8 (c >>> 8 ^^^ c >>> 8) := by
        rw [crc16Update_low, crc16Update, setWidth_extractLsb'_eight]
    _ = crc16Steps 8 0#16 := by rw [BitVec.xor_self]
    _ = 0x0000#16 := by decide

/-- The two bytes of the register's complement bring every register to one constant. -/
theorem crc16Raw_le16_not (c : Half) : crc16Raw c (le16 (~~~ c)) = 0xF0B8#16 := by
  calc crc16Raw c (le16 (~~~ c))
      = crc16Raw (c ^^^ 0x0000#16) (le16 (c ^^^ 0xFFFF#16)) := by
        rw [BitVec.xor_zero, show c ^^^ 0xFFFF#16 = ~~~ c from BitVec.xor_allOnes]
    _ = crc16Raw c (le16 c) ^^^ crc16Raw 0x0000#16 (le16 0xFFFF#16) := crc16Raw_le16_xor ..
    _ = crc16Raw 0x0000#16 (le16 0xFFFF#16) := by rw [crc16Raw_le16_self, BitVec.zero_xor]
    _ = 0xF0B8#16 := by simp [le16, crc16Update, crc16Steps, crc16Step, crcPoly]

/-- Settles O12: the register before the CRC bytes is the CRC for kind A, its complement for kind B. -/
theorem crcResidues : Obligations.CrcResidues := by
  intro bs
  have hA : crcA (bs ++ le16 (crcA bs)) = 0x0000#16 :=
    (crc16Raw_append _ _ _).trans (crc16Raw_le16_self (crcA bs))
  have hB : crc16Raw 0xFFFF#16 (bs ++ le16 (crcB bs)) = 0xF0B8#16 :=
    (crc16Raw_append _ _ _).trans (crc16Raw_le16_not (crc16Raw 0xFFFF#16 bs))
  exact ⟨hA, hB, (congrArg (~~~ ·) hB).trans (by decide)⟩

end Sys2Proof.Machine
end

section
/-! A CRC appended to a payload, then checked: the frame that the check reads is the payload and the
CRC that the append stored (spec/40_crc.md section 3). -/

namespace Sys2Proof.Machine

/-- An append to a valid length runs the body (R68, R69, R115). -/
theorem exec_appendCrc_of_le {i : Instr} {f : List Byte → Half} {s : State}
    (hi : UsesCrc .appendCrcA .appendCrcB i f) (hle : s.lenNat ≤ s.config.bufcap) :
    exec i s = .next (appendCrc f s) := by
  rcases hi with ⟨rfl, rfl⟩ | ⟨rfl, rfl⟩ <;> exact congrArg _ (checkLen_of_le hle _)

section
variable {s : State} (f : List Byte → Half)

/-- The CRC a frame carries after an append is the one that was stored. -/
theorem frameCrc_appendCrc (hfit : s.lenNat + 2 ≤ s.config.bufcap) :
    (appendCrc f s).frameCrc = f s.payload := by
  obtain ⟨-, -, hlow, hhigh, -, hlen, -⟩ := appendCrc_spec f s hfit
  have hlast : s.lenNat + 2 - 1 = s.lenNat + 1 := by omega
  rw [State.frameCrc, hlen, Nat.add_sub_cancel, hlast, byteAt_of_read hlow, byteAt_of_read hhigh,
    fromLe16_le16]

/-- The payload part of the frame after an append is the payload that was written. -/
theorem framePayload_appendCrc (hfit : s.lenNat + 2 ≤ s.config.bufcap)
    (hw : s.allWritten s.lenNat) : (appendCrc f s).framePayload = s.payload := by
  obtain ⟨-, -, -, -, hother, hlen, -⟩ := appendCrc_spec f s hfit
  rw [State.framePayload, hlen, Nat.add_sub_cancel]
  exact bytes_congr_of_written hw fun a ha => hother a (by omega) (by omega)

/-- A check right after an append computes its own CRC of the payload and compares it with the one
appended. -/
theorem exec_check_appendCrc {i : Instr} {g : List Byte → Half}
    (hi : UsesCrc .checkCrcA .checkCrcB i g) (hfit : s.lenNat + 2 ≤ s.config.bufcap)
    (hw : s.allWritten s.lenNat) :
    ∃ u, exec i (appendCrc f s) = .next u ∧
      u.succeeded (matchOf (g s.payload) (f s.payload)) 0#2 ∧ u.crc = g s.payload ∧
      SameBytes (appendCrc f s) u := by
  obtain ⟨-, -, -, -, -, hlen, ⟨hconfig, -⟩⟩ := appendCrc_spec f s hfit
  obtain ⟨hcrc, hok, hbuf, -⟩ := checkCrc_spec g (appendCrc f s) (by omega)
  rw [framePayload_appendCrc f hfit hw] at hcrc hok
  rw [frameCrc_appendCrc f hfit] at hok
  exact ⟨_, exec_checkCrc_of_le hi (by rw [hlen, hconfig]; exact hfit), hok, hcrc,
    fun a => by rw [hbuf]⟩

/-- The check of the same kind matches. -/
theorem exec_check_appendCrc_same {i : Instr} (hi : UsesCrc .checkCrcA .checkCrcB i f)
    (hfit : s.lenNat + 2 ≤ s.config.bufcap) (hw : s.allWritten s.lenNat) :
    ∃ u, exec i (appendCrc f s) = .next u ∧ u.succeeded 1#1 0#2 ∧
      u.crc = (appendCrc f s).crc ∧ SameBytes (appendCrc f s) u := by
  obtain ⟨hcrc, -⟩ := appendCrc_spec f s hfit
  obtain ⟨u, hu, hok, hcrc', hsame⟩ := exec_check_appendCrc f hi hfit hw
  rw [(matchOf_eq_one_iff _ _).2 rfl] at hok
  exact ⟨u, hu, hok, hcrc'.trans hcrc.symm, hsame⟩

end

/-- Settles O21, by what a check after an append compares. -/
theorem appendThenCheckMatches : Obligations.AppendThenCheckMatches := by
  intro s hfit hw
  have hle : s.lenNat ≤ s.config.bufcap := by omega
  refine ⟨?_, ?_⟩
  · obtain ⟨u, hu, hok, hcrc, hsame⟩ := exec_check_appendCrc_same crcA (.inl ⟨rfl, rfl⟩) hfit hw
    obtain ⟨v, hv, ⟨-, hmatch, -⟩, -⟩ := exec_check_appendCrc crcA (.inr ⟨rfl, rfl⟩) hfit hw
    refine ⟨_, u, v, exec_appendCrc_of_le (.inl ⟨rfl, rfl⟩) hle, hu, hv, hok, hcrc, hsame, ?_⟩
    rw [hmatch, matchOf_eq_one_iff, eq_comm]
  · obtain ⟨u, hu, hok, hcrc, hsame⟩ := exec_check_appendCrc_same crcB (.inr ⟨rfl, rfl⟩) hfit hw
    exact ⟨_, u, exec_appendCrc_of_le (.inr ⟨rfl, rfl⟩) hle, hu, hok, hcrc, hsame⟩

end Sys2Proof.Machine
end

section
/-! The order and the bounds of the host's accesses (spec/20_memory.md R32, R39). -/

namespace Sys2Proof.Machine

/-- Settles O4: each of the transactions that `perform_cases` lists keeps the host's side but for the
reply of a read. -/
theorem stepTakesTheOldestTransaction : Obligations.StepTakesTheOldestTransaction := by
  intro s s' t rest hp h
  rw [step_of_pending hp] at h
  rcases perform_cases h with ⟨n, r, rfl, -, rfl⟩ | ⟨op, rfl, hx⟩ | ⟨v, rfl, rfl⟩ |
    ⟨n, v, rfl, -, -, rfl⟩ | ⟨i, rfl, -, rfl⟩ | ⟨i, b, rfl, -, rfl⟩ | ⟨rfl, rfl⟩
  · exact ⟨rfl, rfl, [_], rfl, rfl⟩
  · obtain ⟨hconfig, hpending, hreplies⟩ := exec_sameHostSide hx
    exact ⟨hpending, hconfig, [], by simpa using hreplies, rfl⟩
  · exact ⟨rfl, rfl, [], by simp, rfl⟩
  · exact ⟨rfl, rfl, [], by simp, rfl⟩
  · exact ⟨by simp, by simp, [_], congrArg (· ++ [_]) (afterReading_replies _ _), rfl⟩
  · exact ⟨rfl, rfl, [], by simp, rfl⟩
  · exact ⟨rfl, rfl, [], by simp, rfl⟩

/-- Settles O48. -/
theorem indexBeyondTheBufferIsRefused : Obligations.IndexBeyondTheBufferIsRefused :=
  fun _ _ v hi => ⟨bufRead_of_le hi, bufWrite_of_le hi v⟩

end Sys2Proof.Machine
end

section
/-! The encoding (spec/30_encoding.md R45, R47, R48): the decoder against the rows of the table. -/

namespace Sys2Proof

/-- The check of a command says that its code lies in its own row (R47). -/
theorem wf_eq_row_fits (i : Instr) : i.wf = i.row.fits (encode i) := by
  cases i <;> rfl

/-- Along the decoder's branches: a row of one code has that code, a range row keeps the code. -/
theorem encode_decode (op : Byte) : encode (decode op) = op := by
  fun_cases decode op
  all_goals simp only [encode]
  all_goals exact Eq.symm ‹_›

/-- Every byte decodes to a command of the encoding, by `decode_fits`. -/
theorem wf_decode (op : Byte) : (decode op).wf = true := by
  have hfits := decode_fits op
  rwa [wf_eq_row_fits, encode_decode]

/-- The decoder's first nine branches are the codes below 0x09, the others are reserved (R48). -/
theorem isReserved_decode_iff (op : Byte) : (decode op).isReserved = true ↔ 0x09#8 ≤ op := by
  fun_cases decode op
  all_goals simp only [Instr.isReserved, true_iff, Bool.false_eq_true, false_iff]
  all_goals bv_omega

namespace Machine

/-- Settles O2. -/
theorem decodeAndEncodeAgree : Obligations.DecodeAndEncodeAgree := by
  refine ⟨fun i hi => decode_encode hi, fun op => ⟨wf_decode op, encode_decode op⟩, fun op => ?_⟩
  rw [decodeTableWord_eight, BitVec.ofNat_toNat, BitVec.setWidth_eq]

/-- A code from 0x09 up runs the one effect of the reserved rows (R48). -/
theorem exec_decode_of_reserved {op : Byte} (h : 0x09#8 ≤ op) (s : State) :
    exec (decode op) s = .next (s.failedWith 0x04#8) :=
  exec_of_reserved ((isReserved_decode_iff op).2 h) s

/-- Settles O1: the rows' ends are evaluated; the rest speaks of all codes. -/
theorem opcodeMapSelectsTheCommands : Obligations.OpcodeMapSelectsTheCommands := by
  refine ⟨by decide, by decide, isReserved_decode_iff, opcodeTable_partition, fun op s h => ?_⟩
  rw [exec_decode_of_reserved h, exec_of_reserved (i := .reserved09) rfl]

/-- Settles O7. -/
theorem reservedCodesReportUnsupported : Obligations.ReservedCodesReportUnsupported := by
  intro s
  have reserved (i : Instr) (hi : i.isReserved = true) : exec i s = .next (s.failedWith 0x04#8) :=
    exec_of_reserved hi s
  exact ⟨reserved _ rfl, fun _ => reserved _ rfl, fun _ => reserved _ rfl, fun _ => reserved _ rfl,
    fun _ => reserved _ rfl, fun _ => reserved _ rfl, fun _ => reserved _ rfl,
    fun op hop => (exec_cmdWrite op s).trans (exec_decode_of_reserved hop s)⟩

end Machine

end Sys2Proof
end

section
/-! What a command does not read in the buffer: any byte above the payload (spec/30_encoding.md
R46). -/

namespace Sys2Proof.Machine

/-- The state with another buffer. -/
def State.withBuf (s : State) (m : Memory) : State := { s with buf := m }

/-- The memory holds the payload of the state. -/
def State.SamePayload (s : State) (m : Memory) : Prop :=
  ∀ a, a < s.lenNat → m.read a = s.buf.read a

/-- The states `t`, left from `s`, and `u`, left from `s` with the buffer `m`, show the same
registers, and the same bytes where `m` and the buffer of `s` were the same. -/
structure Alike (s : State) (m : Memory) (t u : State) : Prop where
  len : u.len = t.len
  crc : u.crc = t.crc
  err : u.err = t.err
  matchFlag : u.matchFlag = t.matchFlag
  level : u.level = t.level
  bytes : ∀ a, m.read a = s.buf.read a → u.buf.read a = t.buf.read a

variable {s : State} {m : Memory}

theorem alike_self : Alike s m s (s.withBuf m) := ⟨rfl, rfl, rfl, rfl, rfl, fun _ ha => ha⟩

theorem Alike.afterReading {t u : State} (h : Alike s m t u) (is : List Nat) :
    Alike s m (t.afterReading is) (u.afterReading is) :=
  ⟨by simpa using h.len, by simpa using h.crc, by simpa using h.err, by simpa using h.matchFlag,
    by simpa using h.level, by simpa using h.bytes⟩

theorem Alike.failedWith {t u : State} (h : Alike s m t u) (code : Byte) :
    Alike s m (t.failedWith code) (u.failedWith code) :=
  ⟨h.len, h.crc, rfl, rfl, rfl, h.bytes⟩

/-- Two successes with the same match and level are alike when the other results are. -/
theorem Alike.of_succeeded {t u : State} {b : BitVec 1} {l : BitVec 2} (ht : t.succeeded b l)
    (hu : u.succeeded b l) (hlen : u.lenNat = t.lenNat) (hcrc : u.crc = t.crc)
    (hbytes : ∀ a, m.read a = s.buf.read a → u.buf.read a = t.buf.read a) : Alike s m t u :=
  ⟨BitVec.eq_of_toNat_eq hlen, hcrc, hu.err_eq.trans ht.err_eq.symm,
    hu.matchFlag_eq.trans ht.matchFlag_eq.symm, hu.level_eq.trans ht.level_eq.symm, hbytes⟩

/-- The same sequence stored in two memories keeps the bytes that were the same. -/
theorem Memory.read_putAll_congr {m m' : Memory} {a : Nat} (i : Nat) (cs : List (Option Byte))
    (h : m'.read a = m.read a) : (m'.putAll i cs).read a = (m.putAll i cs).read a := by
  rw [Memory.read_putAll, Memory.read_putAll, h]

/-! ### What is read of the payload -/

namespace State.SamePayload

theorem byteAt_eq (h : s.SamePayload m) {a : Nat} (ha : a < s.lenNat) :
    (s.withBuf m).byteAt a = s.byteAt a :=
  congrArg (Option.getD · (Config.freeByte s.draws a)) (h a ha)

theorem bytes_eq (h : s.SamePayload m) {n : Nat} (hn : n ≤ s.lenNat) :
    (s.withBuf m).bytes n = s.bytes n :=
  bytes_congr rfl fun a ha => h a (by omega)

theorem payload_eq (h : s.SamePayload m) : (s.withBuf m).payload = s.payload :=
  h.bytes_eq (Nat.le_refl _)

theorem framePayload_eq (h : s.SamePayload m) : (s.withBuf m).framePayload = s.framePayload :=
  h.bytes_eq (Nat.sub_le _ _)

theorem frameCrc_eq (h : s.SamePayload m) (h2 : 2 ≤ s.lenNat) :
    (s.withBuf m).frameCrc = s.frameCrc :=
  congrArg₂ fromLe16 (h.byteAt_eq (a := s.lenNat - 2) (by omega))
    (h.byteAt_eq (a := s.lenNat - 1) (by omega))

theorem contents_eq (h : s.SamePayload m) : m.contents s.lenNat = s.buf.contents s.lenNat :=
  List.map_congr_left fun a ha => h a (List.mem_range.1 ha)

end State.SamePayload

/-- A tag lies inside its form (R87). -/
theorem lt_of_mem_tagIndices {n level i : Nat} (h : levelOfFormLen n = some level)
    (hi : i ∈ tagIndices level) : i < n := by
  obtain ⟨hn, -, -⟩ := formLen_of_level h
  obtain ⟨k, hk, rfl⟩ := List.mem_map.1 hi
  have := List.mem_range.1 hk
  omega

/-! ### The bodies -/

/-- A change of the state that reads no byte of the buffer above the payload. -/
def ReadsOnlyPayload (body : State → State) : Prop :=
  ∀ (s : State) (m : Memory), s.SamePayload m → Alike s m (body s) (body (s.withBuf m))

theorem readsOnlyPayload_computeCrc (crc : List Byte → Half) :
    ReadsOnlyPayload (computeCrc crc) := by
  intro s m h
  obtain ⟨hcrc, hok, hbuf, hlen, -⟩ := computeCrc_spec crc s
  obtain ⟨hcrc', hok', hbuf', hlen', -⟩ := computeCrc_spec crc (s.withBuf m)
  refine .of_succeeded hok hok' ?_ ?_ fun a ha => ?_
  · rw [State.lenNat, State.lenNat, hlen, hlen']; rfl
  · rw [hcrc, hcrc', h.payload_eq]
  · rw [hbuf, hbuf']; exact ha

theorem readsOnlyPayload_appendCrc (crc : List Byte → Half) :
    ReadsOnlyPayload (appendCrc crc) := by
  intro s m h
  rcases Nat.lt_or_ge s.config.bufcap (s.lenNat + 2) with hlt | hfit
  · rw [appendCrc_of_short crc s hlt, appendCrc_of_short crc (s.withBuf m) hlt]
    exact alike_self.failedWith _
  · rw [appendCrc_of_fits crc s hfit, appendCrc_of_fits crc (s.withBuf m) hfit, h.payload_eq]
    exact .of_succeeded (done_succeeded _ _ _) (done_succeeded _ _ _) rfl rfl
      fun _ ha => Memory.read_putAll_congr _ _ ha

theorem readsOnlyPayload_checkCrc (crc : List Byte → Half) :
    ReadsOnlyPayload (checkCrc crc) := by
  intro s m h
  rcases Nat.lt_or_ge s.lenNat 2 with hlt | h2
  · rw [checkCrc_of_short crc s hlt, checkCrc_of_short crc (s.withBuf m) hlt]
    exact alike_self.failedWith _
  · obtain ⟨hcrc, hok, hbuf, hlen, -⟩ := checkCrc_spec crc s h2
    obtain ⟨hcrc', hok', hbuf', hlen', -⟩ := checkCrc_spec crc (s.withBuf m) h2
    rw [h.framePayload_eq] at hcrc' hok'
    rw [h.frameCrc_eq h2] at hok'
    refine .of_succeeded hok hok' ?_ (hcrc'.trans hcrc.symm) fun a ha => ?_
    · rw [State.lenNat, State.lenNat, hlen, hlen']; rfl
    · rw [hbuf, hbuf']; exact ha

theorem readsOnlyPayload_cascadeBuf : ReadsOnlyPayload cascadeBuf := by
  intro s m h
  cases hlev : levelOfUidLen s.lenNat with
  | none =>
    rw [cascadeBuf_of_badLen s hlev, cascadeBuf_of_badLen (s.withBuf m) hlev]
    exact alike_self.failedWith _
  | some level =>
    obtain ⟨hbuf, hlen, hok, hcrc, -⟩ := cascadeBuf_spec s hlev
    obtain ⟨hbuf', hlen', hok', hcrc', -⟩ := cascadeBuf_spec (s.withBuf m) hlev
    refine .of_succeeded hok hok' (hlen'.trans hlen.symm) (hcrc'.trans hcrc.symm) fun a ha => ?_
    rw [hbuf, hbuf', ← h.contents_eq]
    exact Memory.read_putAll_congr _ _ ha

theorem readsOnlyPayload_uncascadeBuf : ReadsOnlyPayload uncascadeBuf := by
  intro s m h
  cases hlev : levelOfFormLen s.lenNat with
  | none =>
    rw [uncascadeBuf_of_badLen s hlev, uncascadeBuf_of_badLen (s.withBuf m) hlev]
    exact alike_self.failedWith _
  | some level =>
    have htags : (∀ i ∈ tagIndices level, (s.withBuf m).byteAt i = cascadeTag) ↔
        ∀ i ∈ tagIndices level, s.byteAt i = cascadeTag :=
      forall₂_congr fun i hi => by rw [h.byteAt_eq (lt_of_mem_tagIndices hlev hi)]
    by_cases ht : ∀ i ∈ tagIndices level, s.byteAt i = cascadeTag
    · obtain ⟨hbuf, hlen, hok, hcrc, -⟩ := uncascadeBuf_spec s hlev ht
      obtain ⟨hbuf', hlen', hok', hcrc', -⟩ := uncascadeBuf_spec (s.withBuf m) hlev (htags.2 ht)
      refine .of_succeeded hok hok' (hlen'.trans hlen.symm) (hcrc'.trans hcrc.symm) fun a ha => ?_
      rw [hbuf, hbuf', ← h.contents_eq]
      exact Memory.read_putAll_congr _ _ ha
    · rw [uncascadeBuf_of_badTag s hlev ht,
        uncascadeBuf_of_badTag (s.withBuf m) hlev (mt htags.1 ht)]
      exact (alike_self.afterReading _).failedWith _

/-! ### All commands -/

/-- Behind the check of `LEN` a payload lies below `BUFCAP`; when the check fails nothing is read
(R115). -/
theorem ReadsOnlyPayload.checkLen {body : State → State} (hb : ReadsOnlyPayload body)
    (h : ∀ a, a < s.lenNat → a < s.config.bufcap → m.read a = s.buf.read a) :
    Alike s m (checkLen s body) (checkLen (s.withBuf m) body) := by
  rcases Nat.lt_or_ge s.config.bufcap s.lenNat with hlt | hle
  · rw [checkLen_of_lt hlt, checkLen_of_lt (s := s.withBuf m) hlt]
    exact alike_self.failedWith _
  · rw [checkLen_of_le hle, checkLen_of_le (s := s.withBuf m) hle]
    exact hb s m fun a ha => h a ha (by omega)

/-- Every command leaves alike states from two buffers that agree on the valid part of the
payload. -/
theorem exec_alike (i : Instr)
    (h : ∀ a, a < s.lenNat → a < s.config.bufcap → m.read a = s.buf.read a) :
    ∃ t u, exec i s = .next t ∧ exec i (s.withBuf m) = .next u ∧ Alike s m t u := by
  have checked {body : State → State} (hi : ∀ s, exec i s = .next (checkLen s body))
      (hb : ReadsOnlyPayload body) :
      ∃ t u, exec i s = .next t ∧ exec i (s.withBuf m) = .next u ∧ Alike s m t u :=
    ⟨_, _, hi s, hi (s.withBuf m), hb.checkLen h⟩
  have reserved (hr : i.isReserved = true) :
      ∃ t u, exec i s = .next t ∧ exec i (s.withBuf m) = .next u ∧ Alike s m t u :=
    ⟨_, _, exec_of_reserved hr s, exec_of_reserved hr (s.withBuf m), alike_self.failedWith _⟩
  cases i with
  | nop => exact ⟨s, s.withBuf m, rfl, rfl, alike_self⟩
  | crcA => exact checked (fun _ => rfl) (readsOnlyPayload_computeCrc _)
  | crcB => exact checked (fun _ => rfl) (readsOnlyPayload_computeCrc _)
  | appendCrcA => exact checked (fun _ => rfl) (readsOnlyPayload_appendCrc _)
  | appendCrcB => exact checked (fun _ => rfl) (readsOnlyPayload_appendCrc _)
  | checkCrcA => exact checked (fun _ => rfl) (readsOnlyPayload_checkCrc _)
  | checkCrcB => exact checked (fun _ => rfl) (readsOnlyPayload_checkCrc _)
  | cascadeUid => exact checked (fun _ => rfl) readsOnlyPayload_cascadeBuf
  | uncascadeUid => exact checked (fun _ => rfl) readsOnlyPayload_uncascadeBuf
  | reserved09 | reserved0A0B | reserved0C0F | reserved101F | reserved203F | reserved407F
    | reserved80FF => exact reserved rfl

/-- Settles O42, by `exec_alike`. -/
theorem commandsReadOnlyThePayload : Obligations.CommandsReadOnlyThePayload := by
  intro i s m h
  obtain ⟨t, u, ht, hu, ⟨hlen, hcrc, herr, hmatch, hlevel, hbytes⟩⟩ := exec_alike i h
  exact ⟨t, u, ht, hu, hlen, hcrc, herr, hmatch, hlevel, hbytes⟩

end Sys2Proof.Machine
end

section
/-! The CRC functions (spec/40_crc.md R60 to R65): the turn of the loop is a bijection, so the
register tells apart two sequences that differ in one byte or in the two bytes after a payload. -/

namespace Sys2Proof.Machine

/-! ### The loop -/

/-- The polynomial has the top bit, which a shifted register has lost: only 0 turns into 0. -/
theorem eq_zero_of_crc16Step_eq_zero {c : Half} (h : crc16Step c = 0#16) : c = 0#16 := by
  have hbit (k : Nat) : c.getLsbD (1 + k) = (c >>> 1).getLsbD k := by simp
  cases h0 : c.getLsbD 0 with
  | false =>
    rw [crc16Step_of_even h0] at h
    refine BitVec.eq_of_getLsbD_eq fun i _ => ?_
    cases i with
    | zero => simpa using h0
    | succ k => rw [Nat.add_comm, hbit, h]; simp
  | true =>
    rw [crc16Step_of_odd h0, BitVec.xor_eq_zero_iff] at h
    have htop : (c >>> 1).getLsbD 15 = crcPoly.getLsbD 15 := by rw [h]
    rw [← hbit] at htop
    simp [crcPoly] at htop

theorem crc16Step_injective : Function.Injective crc16Step := by
  intro a b h
  have hxor : crc16Step (a ^^^ b) = 0#16 := by rw [crc16Step_xor, h, BitVec.xor_self]
  exact BitVec.xor_eq_zero_iff.1 (eq_zero_of_crc16Step_eq_zero hxor)

/-- Settles O11: the 16-bit values are finite, so the injective turn is a bijection. -/
theorem crcTurnIsALinearBijection : Obligations.CrcTurnIsALinearBijection :=
  ⟨crc16Step_xor, Finite.injective_iff_bijective.1 crc16Step_injective⟩

theorem crc16Steps_eq_iterate (n : Nat) (c : Half) : crc16Steps n c = crc16Step^[n] c := by
  induction n generalizing c with
  | zero => rfl
  | succ n ih => rw [crc16Steps, ih, Function.iterate_succ_apply]

theorem crc16Steps_injective (n : Nat) : Function.Injective (crc16Steps n) := by
  rw [show crc16Steps n = crc16Step^[n] from funext (crc16Steps_eq_iterate n)]
  exact crc16Step_injective.iterate n

/-- Settles O8: the loop is the turn iterated; the rule's examples are evaluated. -/
theorem crcUpdateIsEightTurns : Obligations.CrcUpdateIsEightTurns :=
  ⟨fun c b => crc16Steps_eq_iterate 8 (c ^^^ b.setWidth 16), by decide, by decide, by decide,
    by decide, by decide, by decide⟩

/-! ### The byte-at-a-time form -/

/-- What the byte-at-a-time form folds in for the byte `t` that leaves the register (R65). -/
def bytewiseFold (t : Byte) : Half :=
  let u : Byte := t ^^^ (t <<< 4)
  (u.setWidth 16 <<< 8) ^^^ (u.setWidth 16 <<< 3) ^^^ (u.setWidth 16 >>> 4)

theorem crc16UpdateBytewise_eq (c : Half) (b : Byte) :
    crc16UpdateBytewise c b = c >>> 8 ^^^ bytewiseFold (b ^^^ c.extractLsb' 0 8) := by
  simp only [crc16UpdateBytewise, bytewiseFold, BitVec.xor_assoc]

/-- The 256 entries of the table of byte updates. -/
theorem crc16Update_zero_eq : ∀ t : Byte, crc16Update 0#16 t = bytewiseFold t := by decide

/-- The upper half moves down; the byte and the lower half meet and go through the loop together. -/
theorem crc16Update_eq (c : Half) (b : Byte) :
    crc16Update c b = c >>> 8 ^^^ crc16Update 0#16 (b ^^^ c.extractLsb' 0 8) := by
  have hb : c.extractLsb' 0 8 ^^^ (b ^^^ c.extractLsb' 0 8) = b := by
    rw [BitVec.xor_comm b, ← BitVec.xor_assoc, BitVec.xor_self, BitVec.zero_xor]
  calc crc16Update c b
      = crc16Update (c ^^^ 0#16) (c.extractLsb' 0 8 ^^^ (b ^^^ c.extractLsb' 0 8)) := by
        rw [hb, BitVec.xor_zero]
    _ = _ := by rw [crc16Update_xor, crc16Update_low]

/-- Settles O10: both forms shift the upper half down and fold in the same entry of the table. -/
theorem bytewiseUpdateAgrees : Obligations.BytewiseUpdateAgrees := fun c b => by
  rw [crc16UpdateBytewise_eq, crc16Update_eq, crc16Update_zero_eq]

/-! ### Sequences -/

theorem crcA_nil : crcA [] = 0x6363#16 := rfl

theorem crcB_nil : crcB [] = 0x0000#16 := by decide

theorem crc16Raw_concat (init : Half) (bs : List Byte) (b : Byte) :
    crc16Raw init (bs ++ [b]) = crc16Update (crc16Raw init bs) b := crc16Raw_append ..

/-- Settles O9: the two CRCs are folds; the rules' examples are evaluated. -/
theorem crcsOfASequence : Obligations.CrcsOfASequence := by
  refine ⟨fun bs b => ⟨crcA_nil, rfl, crc16Raw_concat .., BitVec.xor_allOnes.symm, ?_⟩,
    by decide +kernel, by decide +kernel, by decide +kernel, crcB_nil, by decide +kernel,
    by decide +kernel, by decide +kernel⟩
  rw [crcB, crcB, BitVec.not_not, crc16Raw_concat]

theorem crc16Update_injective_register (b : Byte) :
    Function.Injective (crc16Update · b) := fun _ _ h =>
  (BitVec.xor_left_inj _).1 (crc16Steps_injective 8 h)

theorem crc16Update_injective_byte (c : Half) : Function.Injective (crc16Update c) := by
  intro a b h
  have hwide : a.setWidth 16 = b.setWidth 16 :=
    (BitVec.xor_right_inj _).1 (crc16Steps_injective 8 h)
  simpa using congrArg (BitVec.setWidth 8) hwide

theorem crc16Raw_injective_register (bs : List Byte) : Function.Injective (crc16Raw · bs) := by
  induction bs with
  | nil => exact Function.injective_id
  | cons b bs ih => exact ih.comp (crc16Update_injective_register b)

/-- One byte exchanged for another shows in the register, whatever follows it. -/
theorem crc16Raw_set_injective (init : Half) {bs : List Byte} {j : Nat} (hj : j < bs.length) :
    Function.Injective fun b => crc16Raw init (bs.set j b) := by
  have hsplit (b : Byte) : crc16Raw init (bs.set j b) =
      crc16Raw (crc16Update (crc16Raw init (bs.take j)) b) (bs.drop (j + 1)) := by
    rw [List.set_eq_take_append_cons_drop, if_pos hj, crc16Raw_append, crc16Raw_cons]
  simp only [hsplit]
  exact (crc16Raw_injective_register _).comp (crc16Update_injective_byte _)

/-- Two bytes are folded into the register by exclusive or with it. -/
theorem crc16Raw_le16 (c v : Half) : crc16Raw c (le16 v) = crc16Raw (c ^^^ v) (le16 0#16) := by
  calc crc16Raw c (le16 v)
      = crc16Raw ((c ^^^ v) ^^^ v) (le16 (0#16 ^^^ v)) := by
        rw [BitVec.xor_assoc, BitVec.xor_self, BitVec.xor_zero, BitVec.zero_xor]
    _ = crc16Raw (c ^^^ v) (le16 0#16) := by
        rw [crc16Raw_le16_xor, crc16Raw_le16_self, BitVec.xor_zero]

theorem crc16Raw_le16_injective (c : Half) : Function.Injective fun v => crc16Raw c (le16 v) := by
  intro v w h
  simp only [crc16Raw_le16 c] at h
  exact (BitVec.xor_right_inj _).1 (crc16Raw_injective_register _ h)

/-! ### What the two kinds share -/

/-- A CRC that tells sequences apart as the register does from some initial value, and whose own two
bytes after a sequence leave a fixed residue (40_crc.md section 3). -/
structure HasResidue (f : List Byte → Half) (residue : Half) : Prop where
  eq_iff_raw : ∃ init, ∀ x y, f x = f y ↔ crc16Raw init x = crc16Raw init y
  append_self : ∀ bs, f (bs ++ le16 (f bs)) = residue

theorem hasResidue_crcA : HasResidue crcA 0x0000#16 where
  eq_iff_raw := ⟨0x6363#16, fun _ _ => Iff.rfl⟩
  append_self bs := (crcResidues bs).1

theorem hasResidue_crcB : HasResidue crcB 0x0F47#16 where
  eq_iff_raw := ⟨0xFFFF#16, fun _ _ => BitVec.not_inj⟩
  append_self bs := (crcResidues bs).2.2

namespace HasResidue

variable {f : List Byte → Half} {r : Half}

/-- The residue is left by the sequence's CRC and by no other two bytes. -/
theorem append_le16_iff (hf : HasResidue f r) (bs : List Byte) (v : Half) :
    f (bs ++ le16 v) = r ↔ f bs = v := by
  obtain ⟨init, hraw⟩ := hf.eq_iff_raw
  rw [← hf.append_self bs, hraw, crc16Raw_append, crc16Raw_append,
    (crc16Raw_le16_injective _).eq_iff, eq_comm]

theorem set_ne (hf : HasResidue f r) {bs : List Byte} {j : Nat} (hj : j < bs.length) {b : Byte}
    (hb : b ≠ bs[j]) : f (bs.set j b) ≠ f bs := by
  obtain ⟨init, hraw⟩ := hf.eq_iff_raw
  intro h
  rw [hraw] at h
  exact hb (crc16Raw_set_injective init hj (by simpa using h))

end HasResidue

end Sys2Proof.Machine
end

section
/-! The six commands of the CRC family (spec/40_crc.md R66 to R71), each pair for either CRC. -/

namespace Sys2Proof.Machine

variable {f : List Byte → Half} {i : Instr} {s : State}

/-- A command that checks `LEN` reports an oversized one and nothing else (R115). -/
theorem exec_of_oversized (hn : i ≠ .nop) (hr : i.isReserved = false)
    (h : s.config.bufcap < s.lenNat) : exec i s = .next (s.failedWith 0x02#8) := by
  cases i with
  | nop => exact absurd rfl hn
  | crcA | crcB | appendCrcA | appendCrcB | checkCrcA | checkCrcB | cascadeUid | uncascadeUid =>
    exact congrArg _ (checkLen_of_lt h _)
  | reserved09 | reserved0A0B | reserved0C0F | reserved101F | reserved203F | reserved407F
    | reserved80FF => cases hr

/-! ### `CRC_A` and `CRC_B` -/

/-- A computation on a valid length runs the body (R66, R67, R115). -/
theorem exec_computeCrc_of_le (hi : UsesCrc .crcA .crcB i f) (hle : s.lenNat ≤ s.config.bufcap) :
    exec i s = .next (computeCrc f s) := by
  rcases hi with ⟨rfl, rfl⟩ | ⟨rfl, rfl⟩ <;> exact congrArg _ (checkLen_of_le hle _)

theorem payload_of_empty (h0 : s.lenNat = 0) : s.payload = [] := by
  rw [State.payload, h0]; rfl

theorem exec_computeCrc (hi : UsesCrc .crcA .crcB i f) (hle : s.lenNat ≤ s.config.bufcap) :
    ∃ t, exec i s = .next t ∧ t.crc = f s.payload ∧ t.succeeded 0#1 0#2 ∧
      SameBytes s t ∧ t.len = s.len ∧ SameHostSide s t ∧ (s.lenNat = 0 → t.crc = f []) := by
  obtain ⟨hcrc, hok, hbuf, hlen, hside⟩ := computeCrc_spec f s
  exact ⟨_, exec_computeCrc_of_le hi hle, hcrc, hok, fun a => by rw [hbuf], hlen, hside,
    fun h0 => by rw [hcrc, payload_of_empty h0]⟩

/-- Settles O14; that bytes above the payload have no influence is `exec_alike`. -/
theorem crcAComputesThePayloadCrc : Obligations.CrcAComputesThePayloadCrc := by
  refine ⟨rfl, fun s hle => exec_computeCrc (.inl ⟨rfl, rfl⟩) hle, fun s m _ hm => ?_,
    fun s h => exec_of_oversized (by simp) rfl h, by decide +kernel⟩
  obtain ⟨t, u, ht, hu, halike⟩ := exec_alike .crcA (s := s) fun a ha _ => hm a ha
  exact ⟨t, u, ht, hu, halike.crc⟩

/-- Settles O15: `exec_computeCrc` for kind B; the CRC of the empty payload is `crcB_nil`. -/
theorem crcBComputesThePayloadCrc : Obligations.CrcBComputesThePayloadCrc := by
  refine ⟨rfl, fun s hle => ?_, fun s h => exec_of_oversized (by simp) rfl h, by decide +kernel⟩
  rw [← crcB_nil]
  exact exec_computeCrc (.inr ⟨rfl, rfl⟩) hle

/-! ### `APPEND_CRC_A` and `APPEND_CRC_B` -/

/-- An append to a valid length without room for two bytes (R68, R69, R116). -/
theorem exec_appendCrc_of_short (hi : UsesCrc .appendCrcA .appendCrcB i f)
    (hle : s.lenNat ≤ s.config.bufcap) (h : s.config.bufcap < s.lenNat + 2) :
    exec i s = .next (s.failedWith 0x01#8) := by
  rw [exec_appendCrc_of_le hi hle, appendCrc_of_short f s h]

theorem exec_appendCrc (hi : UsesCrc .appendCrcA .appendCrcB i f)
    (hfit : s.lenNat + 2 ≤ s.config.bufcap) :
    ∃ t, exec i s = .next t ∧ t.crc = f s.payload ∧
      t.buf.read s.lenNat = some ((f s.payload).extractLsb' 0 8) ∧
      t.buf.read (s.lenNat + 1) = some ((f s.payload).extractLsb' 8 8) ∧
      (∀ a, a ≠ s.lenNat → a ≠ s.lenNat + 1 → t.buf.read a = s.buf.read a) ∧
      t.lenNat = s.lenNat + 2 ∧ t.succeeded 0#1 0#2 ∧ SameHostSide s t ∧
      (s.lenNat = 0 → t.buf.read 0 = some ((f []).extractLsb' 0 8) ∧
        t.buf.read 1 = some ((f []).extractLsb' 8 8)) := by
  obtain ⟨hcrc, hok, hlow, hhigh, hother, hlen, hside⟩ := appendCrc_spec f s hfit
  refine ⟨_, exec_appendCrc_of_le hi (by omega), hcrc, hlow, hhigh, hother, hlen, hok, hside,
    fun h0 => ?_⟩
  rw [payload_of_empty h0, h0] at hlow hhigh
  exact ⟨hlow, hhigh⟩

/-- A payload of two bytes or more is a frame: its payload part and the CRC it carries (R70). -/
theorem payload_eq_frame (h2 : 2 ≤ s.lenNat) : s.payload = s.framePayload ++ le16 s.frameCrc := by
  obtain ⟨n, hn⟩ : ∃ n, s.lenNat = n + 2 := ⟨s.lenNat - 2, by omega⟩
  have hlast : n + 2 - 1 = n + 1 := by omega
  rw [State.payload, State.framePayload, State.frameCrc, le16_fromLe16, hn, Nat.add_sub_cancel,
    hlast, bytes_succ, bytes_succ, List.append_assoc]
  rfl

/-- What is appended to a payload that already ends in its CRC is the residue (R68, R69). -/
theorem exec_appendCrc_twice {r : Half} (hi : UsesCrc .appendCrcA .appendCrcB i f)
    (hf : HasResidue f r) (hfit : s.lenNat + 4 ≤ s.config.bufcap) (hw : s.allWritten s.lenNat) :
    ∃ t u, exec i s = .next t ∧ exec i t = .next u ∧
      u.buf.read (s.lenNat + 2) = some (r.extractLsb' 0 8) ∧
      u.buf.read (s.lenNat + 3) = some (r.extractLsb' 8 8) ∧ u.crc = r := by
  have hfit' : s.lenNat + 2 ≤ s.config.bufcap := by omega
  obtain ⟨-, -, -, -, -, hlen, ⟨hconfig, -⟩⟩ := appendCrc_spec f s hfit'
  have hpayload : f (appendCrc f s).payload = r := by
    rw [payload_eq_frame (by omega), frameCrc_appendCrc f hfit', framePayload_appendCrc f hfit' hw,
      hf.append_self]
  obtain ⟨u, hu, hcrc, hlow, hhigh, -⟩ :=
    exec_appendCrc (s := appendCrc f s) hi (by rw [hlen, hconfig]; omega)
  rw [hpayload] at hcrc hlow hhigh
  rw [hlen] at hlow hhigh
  exact ⟨_, u, exec_appendCrc_of_le hi (by omega), hu, hlow, hhigh, hcrc⟩

/-- Settles O16, for kind A; the residue that a second run appends is 0x0000. -/
theorem appendCrcAStoresTheCrc : Obligations.AppendCrcAStoresTheCrc :=
  ⟨rfl, fun _ hfit => exec_appendCrc (.inl ⟨rfl, rfl⟩) hfit,
    fun _ hfit hw => exec_appendCrc_twice (.inl ⟨rfl, rfl⟩) hasResidue_crcA hfit hw,
    fun _ hle h => exec_appendCrc_of_short (.inl ⟨rfl, rfl⟩) hle h,
    fun _ h => exec_of_oversized (by simp) rfl h, by decide +kernel⟩

/-- Settles O17, for kind B; the residue that a second run appends is 0x0F47. -/
theorem appendCrcBStoresTheCrc : Obligations.AppendCrcBStoresTheCrc :=
  ⟨rfl, fun _ hfit => exec_appendCrc (.inr ⟨rfl, rfl⟩) hfit,
    fun _ hfit hw => exec_appendCrc_twice (.inr ⟨rfl, rfl⟩) hasResidue_crcB hfit hw,
    fun _ hle h => exec_appendCrc_of_short (.inr ⟨rfl, rfl⟩) hle h,
    fun _ h => exec_of_oversized (by simp) rfl h, by decide +kernel⟩

/-- Settles O20: a length of 0 is valid, with room for two bytes, as `BUFCAP` is at least 12 (R3). -/
theorem emptyPayloadIsValid : Obligations.EmptyPayloadIsValid := by
  intro s h0
  have hcap := s.config.atLeast
  have computed {i : Instr} {f : List Byte → Half} (hi : UsesCrc .crcA .crcB i f) :
      ∃ t, exec i s = .next t ∧ t.crc = f [] ∧ t.err = 0x00#8 := by
    obtain ⟨t, ht, -, hok, -, -, -, hcrc⟩ := exec_computeCrc (s := s) hi (by omega)
    exact ⟨t, ht, hcrc h0, hok.err_eq⟩
  have appended {i : Instr} {f : List Byte → Half} (hi : UsesCrc .appendCrcA .appendCrcB i f) :
      ∃ t, exec i s = .next t ∧ t.err = 0x00#8 ∧
        t.buf.read 0 = some ((f []).extractLsb' 0 8) ∧
        t.buf.read 1 = some ((f []).extractLsb' 8 8) := by
    obtain ⟨t, ht, -, -, -, -, -, hok, -, hbytes⟩ := exec_appendCrc (s := s) hi (by omega)
    exact ⟨t, ht, hok.err_eq, hbytes h0⟩
  refine ⟨computed (.inl ⟨rfl, rfl⟩), ?_, appended (.inl ⟨rfl, rfl⟩), appended (.inr ⟨rfl, rfl⟩)⟩
  rw [← crcB_nil]
  exact computed (.inr ⟨rfl, rfl⟩)

/-! ### `CHECK_CRC_A` and `CHECK_CRC_B` -/

/-- A frame too short to hold a CRC: its length is below every `BUFCAP` (R3, R70, R71). -/
theorem exec_checkCrc_of_short (hi : UsesCrc .checkCrcA .checkCrcB i f) (h : s.lenNat < 2) :
    exec i s = .next (s.failedWith 0x03#8) := by
  have hcap := s.config.atLeast
  rw [exec_checkCrc_of_le hi (by omega), checkCrc_of_short f s h]

theorem fromLe16_eq_iff (b0 b1 : Byte) (v : Half) :
    fromLe16 b0 b1 = v ↔ b0 = v.extractLsb' 0 8 ∧ b1 = v.extractLsb' 8 8 := by
  constructor
  · rintro rfl
    exact ⟨(extractLsb'_zero_fromLe16 b0 b1).symm, (extractLsb'_eight_fromLe16 b0 b1).symm⟩
  · rintro ⟨rfl, rfl⟩
    exact fromLe16_le16 v

theorem exec_checkCrc (hi : UsesCrc .checkCrcA .checkCrcB i f) (h2 : 2 ≤ s.lenNat)
    (hle : s.lenNat ≤ s.config.bufcap) :
    ∃ t, exec i s = .next t ∧ t.crc = f s.framePayload ∧
      t.succeeded (matchOf (f s.framePayload) s.frameCrc) 0#2 ∧
      SameBytes s t ∧ t.len = s.len ∧ SameHostSide s t ∧
      (s.lenNat = 2 → (t.matchFlag = 1#1 ↔
        s.byteAt 0 = (f []).extractLsb' 0 8 ∧ s.byteAt 1 = (f []).extractLsb' 8 8)) := by
  obtain ⟨hcrc, hok, hbuf, hlen, hside⟩ := checkCrc_spec f s h2
  refine ⟨_, exec_checkCrc_of_le hi hle, hcrc, hok, fun a => by rw [hbuf], hlen, hside,
    fun htwo => ?_⟩
  rw [hok.matchFlag_eq, matchOf_eq_one_iff, eq_comm, State.framePayload, State.frameCrc, htwo,
    fromLe16_eq_iff]
  rfl

/-- Settles O18: `exec_checkCrc` for kind A, and the two errors. -/
theorem checkCrcAValidatesTheFrame : Obligations.CheckCrcAValidatesTheFrame :=
  ⟨rfl, fun _ h2 hle => exec_checkCrc (.inl ⟨rfl, rfl⟩) h2 hle,
    fun _ h => exec_checkCrc_of_short (.inl ⟨rfl, rfl⟩) h,
    fun _ h => exec_of_oversized (by simp) rfl h, by decide +kernel, by decide +kernel⟩

/-- Settles O19: `exec_checkCrc` for kind B, and the two errors. -/
theorem checkCrcBValidatesTheFrame : Obligations.CheckCrcBValidatesTheFrame :=
  ⟨rfl, fun _ h2 hle => exec_checkCrc (.inr ⟨rfl, rfl⟩) h2 hle,
    fun _ h => exec_checkCrc_of_short (.inr ⟨rfl, rfl⟩) h,
    fun _ h => exec_of_oversized (by simp) rfl h, by decide +kernel, by decide +kernel⟩

end Sys2Proof.Machine
end

section
/-! What the check of a frame detects (spec/40_crc.md section 3): it matches exactly when the CRC of
the whole frame is the residue, and one changed byte changes that CRC. -/

namespace Sys2Proof.Machine

variable {f : List Byte → Half} {r : Half} {i : Instr} {s : State}

/-- A frame is good exactly when the CRC over all of it is the residue. -/
theorem HasResidue.payload_iff (hf : HasResidue f r) (h2 : 2 ≤ s.lenNat) :
    f s.payload = r ↔ f s.framePayload = s.frameCrc := by
  rw [payload_eq_frame h2, hf.append_le16_iff]

/-- The residue of the whole frame decides the check. -/
theorem exec_checkCrc_residue (hi : UsesCrc .checkCrcA .checkCrcB i f) (hf : HasResidue f r)
    (h2 : 2 ≤ s.lenNat) (hle : s.lenNat ≤ s.config.bufcap) :
    ∃ t, exec i s = .next t ∧ t.succeeded (matchOf (f s.payload) r) 0#2 := by
  obtain ⟨t, ht, -, hok, -⟩ := exec_checkCrc hi h2 hle
  exact ⟨t, ht, by simpa only [matchOf, hf.payload_iff h2] using hok⟩

theorem residueVerdict {c : Instr} (hi : UsesCrc .checkCrcA .checkCrcB i f)
    (hc : UsesCrc .crcA .crcB c f) (hf : HasResidue f r) (h2 : 2 ≤ s.lenNat)
    (hle : s.lenNat ≤ s.config.bufcap) :
    ∃ t u, exec i s = .next t ∧ exec c s = .next u ∧ (t.matchFlag = 1#1 ↔ u.crc = r) := by
  obtain ⟨t, ht, hok⟩ := exec_checkCrc_residue hi hf h2 hle
  obtain ⟨u, hu, hcrc, -⟩ := exec_computeCrc hc hle
  exact ⟨t, u, ht, hu, by rw [hok.matchFlag_eq, matchOf_eq_one_iff, hcrc]⟩

/-- Settles O23, with the residue of each kind. -/
theorem residueVerdictAgreesWithCheck : Obligations.ResidueVerdictAgreesWithCheck :=
  fun _ h2 hle _ =>
    ⟨residueVerdict (.inl ⟨rfl, rfl⟩) (.inl ⟨rfl, rfl⟩) hasResidue_crcA h2 hle,
      residueVerdict (.inr ⟨rfl, rfl⟩) (.inr ⟨rfl, rfl⟩) hasResidue_crcB h2 hle⟩

/-! ### A changed byte -/

/-- A write to the buffer replaces the byte in every sequence read that holds its index. -/
theorem bytes_write (s : State) (n j : Nat) (b : Byte) :
    (s.withBuf (s.buf.write j b)).bytes n = (s.bytes n).set j b := by
  refine List.ext_getElem (by simp) fun k _ _ => ?_
  have hread : (s.withBuf (s.buf.write j b)).byteAt k = if j = k then b else s.byteAt k := by
    rw [State.byteAt, State.withBuf, Memory.read_write]
    split <;> rfl
  rw [getElem_bytes, hread, List.getElem_set, getElem_bytes]

theorem xor_one_shiftLeft_ne (b : Byte) {k : Nat} (hk : k < 8) : b ^^^ (1#8 <<< k) ≠ b := by
  intro h
  have hbit := congrArg (BitVec.getLsbD · k) h
  simp [hk] at hbit

/-- A good frame matches, and does not once any one of its bytes is another: not an error. -/
theorem exec_checkCrc_changedByte (hi : UsesCrc .checkCrcA .checkCrcB i f) (hf : HasResidue f r)
    (h2 : 2 ≤ s.lenNat) (hle : s.lenNat ≤ s.config.bufcap) {j : Nat} (hj : j < s.lenNat) {b : Byte}
    (hb : b ≠ s.byteAt j) (hgood : s.frameCrc = f s.framePayload) :
    ∃ t u, exec i s = .next t ∧ t.succeeded 1#1 0#2 ∧
      exec i (s.withBuf (s.buf.write j b)) = .next u ∧ u.succeeded 0#1 0#2 := by
  have hres : f s.payload = r := (hf.payload_iff h2).2 hgood.symm
  have hbad : f (s.withBuf (s.buf.write j b)).payload ≠ r := by
    have hset : (s.withBuf (s.buf.write j b)).payload = s.payload.set j b := bytes_write ..
    rw [hset, ← hres]
    exact hf.set_ne (by simpa [State.payload] using hj) (by simpa [State.payload] using hb)
  obtain ⟨t, ht, hok⟩ := exec_checkCrc_residue hi hf h2 hle
  obtain ⟨u, hu, hno⟩ := exec_checkCrc_residue (s := s.withBuf (s.buf.write j b)) hi hf h2 hle
  rw [(matchOf_eq_one_iff _ _).2 hres] at hok
  rw [(matchOf_eq_zero_iff _ _).2 hbad] at hno
  exact ⟨t, u, ht, hok, hu, hno⟩

/-- Settles O22: a byte with one bit inverted is another byte. -/
theorem singleBitErrorIsDetected : Obligations.SingleBitErrorIsDetected := by
  intro s j k b h2 hle _ hj hb hk
  have hne : b ^^^ (1#8 <<< k) ≠ s.byteAt j := byteAt_of_read hb ▸ xor_one_shiftLeft_ne b hk
  exact ⟨exec_checkCrc_changedByte (.inl ⟨rfl, rfl⟩) hasResidue_crcA h2 hle hj hne,
    exec_checkCrc_changedByte (.inr ⟨rfl, rfl⟩) hasResidue_crcB h2 hle hj hne⟩

end Sys2Proof.Machine
end

section
/-! The layout of the cascade-tagged form (spec/41_cascade_uid.md R85 to R88): where each UID byte
stands in the form, and that the two functions undo each other. -/

namespace Sys2Proof.Machine

/-- Where byte `j` of a UID stands in the form with `k` tags (R87): one tag comes before it in its own
fragment and in each fragment before that one, up to the last fragment, which has none. -/
def formIndex (k j : Nat) : Nat := j + min (j / 3 + 1) k

theorem formIndex_zero (j : Nat) : formIndex 0 j = j := by simp [formIndex]

theorem formIndex_succ_of_lt (k : Nat) {j : Nat} (h : j < 3) : formIndex (k + 1) j = j + 1 := by
  unfold formIndex; omega

theorem formIndex_succ_add_three (k j : Nat) :
    formIndex (k + 1) (j + 3) = formIndex k j + 4 := by
  unfold formIndex; omega

theorem mem_tagIndices {level i : Nat} : i ∈ tagIndices level ↔ ∃ k < level - 1, 4 * k = i := by
  simp [tagIndices]

theorem tagIndices_one : tagIndices 1 = [] := rfl

theorem tagIndices_two : tagIndices 2 = [0] := rfl

theorem tagIndices_three : tagIndices 3 = [0, 4] := rfl

/-- Every byte of a form is a tag or a byte of the UID (R87). -/
theorem tagIndex_or_formIndex {level a : Nat} (ha : a < 4 * level) :
    a ∈ tagIndices level ∨ ∃ j < 3 * level + 1, formIndex (level - 1) j = a := by
  by_cases htag : a % 4 = 0 ∧ a < 4 * (level - 1)
  · exact .inl (mem_tagIndices.2 ⟨a / 4, by omega, by omega⟩)
  · exact .inr ⟨a - min (a / 4 + 1) (level - 1), by omega, by unfold formIndex; omega⟩

theorem formIndex_lt {level j : Nat} (hpos : 1 ≤ level) (hj : j < 3 * level + 1) :
    formIndex (level - 1) j < 4 * level := by
  unfold formIndex; omega

/-! ### Sequences -/

section
variable {α : Type}

theorem getElem?_addTags_tag (tag : α) {k i : Nat} {u : List α} (hu : 3 * k ≤ u.length)
    (hi : i < k) : (addTags tag k u)[4 * i]? = some tag := by
  induction k generalizing u i with
  | zero => omega
  | succ k ih =>
    cases i with
    | zero => rfl
    | succ i =>
      have htake : (u.take 3).length = 3 := by simp; omega
      rw [addTags, show 4 * (i + 1) = 4 * i + 3 + 1 by omega, List.getElem?_cons_succ,
        List.getElem?_append_right (by omega), htake, Nat.add_sub_cancel]
      exact ih (by simp; omega) (by omega)

theorem getElem?_addTags_formIndex (tag : α) {k : Nat} {u : List α} (hu : 3 * k ≤ u.length)
    (j : Nat) : (addTags tag k u)[formIndex k j]? = u[j]? := by
  induction k generalizing u j with
  | zero => rw [formIndex_zero]; rfl
  | succ k ih =>
    have htake : (u.take 3).length = 3 := by simp; omega
    rcases Nat.lt_or_ge j 3 with hj | hj
    · rw [addTags, formIndex_succ_of_lt k hj, List.getElem?_cons_succ,
        List.getElem?_append_left (by omega), List.getElem?_take_of_lt hj]
    · obtain ⟨j, rfl⟩ := Nat.exists_eq_add_of_le' hj
      rw [addTags, formIndex_succ_add_three, List.getElem?_cons_succ,
        List.getElem?_append_right (by omega), htake, Nat.add_sub_cancel,
        ih (by simp; omega), List.getElem?_drop, Nat.add_comm]

theorem getElem?_dropTags {k : Nat} {f : List α} (hf : 4 * k ≤ f.length) (j : Nat) :
    (dropTags k f)[j]? = f[formIndex k j]? := by
  induction k generalizing f j with
  | zero => rw [formIndex_zero]; rfl
  | succ k ih =>
    have htake : ((f.drop 1).take 3).length = 3 := by simp; omega
    rcases Nat.lt_or_ge j 3 with hj | hj
    · rw [dropTags, formIndex_succ_of_lt k hj, List.getElem?_append_left (by omega),
        List.getElem?_take_of_lt hj, List.getElem?_drop, Nat.add_comm]
    · obtain ⟨j, rfl⟩ := Nat.exists_eq_add_of_le' hj
      rw [dropTags, formIndex_succ_add_three, List.getElem?_append_right (by omega), htake,
        Nat.add_sub_cancel, ih (by simp; omega), List.getElem?_drop, Nat.add_comm]

theorem dropTags_addTags (tag : α) {k : Nat} {u : List α} (hu : 3 * k ≤ u.length) :
    dropTags k (addTags tag k u) = u := by
  have hlen := length_addTags tag k u hu
  refine List.ext_getElem? fun j => ?_
  rw [getElem?_dropTags (by omega), getElem?_addTags_formIndex tag hu]

/-- What has the tags in their places is the form of the UID it holds. -/
theorem addTags_dropTags {tag : α} {level : Nat} {f : List α} (hpos : 1 ≤ level)
    (hf : f.length = 4 * level) (htags : ∀ i ∈ tagIndices level, f[i]? = some tag) :
    addTags tag (level - 1) (dropTags (level - 1) f) = f := by
  have hdrop := length_dropTags (level - 1) f (by omega)
  have hlen := length_addTags tag (level - 1) (dropTags (level - 1) f) (by omega)
  refine List.ext_getElem? fun a => ?_
  rcases Nat.lt_or_ge a (4 * level) with ha | ha
  · rcases tagIndex_or_formIndex ha with htag | ⟨j, -, rfl⟩
    · obtain ⟨i, hi, rfl⟩ := mem_tagIndices.1 htag
      rw [htags _ htag, getElem?_addTags_tag tag (by omega) hi]
    · rw [getElem?_addTags_formIndex tag (by omega), getElem?_dropTags (by omega)]
  · rw [List.getElem?_eq_none (by omega), List.getElem?_eq_none (by omega)]

end

/-! ### The two functions -/

theorem levelOfUidLen_of_level {level : Nat} (hpos : 1 ≤ level) (hle : level ≤ 3) :
    levelOfUidLen (3 * level + 1) = some level :=
  levelOfUidLen_eq_some.2 (by omega)

theorem levelOfFormLen_of_level {level : Nat} (hpos : 1 ≤ level) (hle : level ≤ 3) :
    levelOfFormLen (4 * level) = some level :=
  levelOfFormLen_eq_some.2 (by omega)

theorem cascade_eq_some {u f : List Byte} :
    cascade u = some f ↔
      ∃ level, levelOfUidLen u.length = some level ∧ addTags cascadeTag (level - 1) u = f :=
  Option.map_eq_some_iff

theorem uncascade_of_level {f : List Byte} {level : Nat} (h : levelOfFormLen f.length = some level) :
    uncascade f = if ∀ i ∈ tagIndices level, f[i]? = some cascadeTag then
      some (dropTags (level - 1) f) else none := by
  simp [uncascade, h]

theorem uncascade_of_badLen {f : List Byte} (h : levelOfFormLen f.length = none) :
    uncascade f = none := by
  rw [uncascade, h]

theorem uncascade_eq_some {f u : List Byte} :
    uncascade f = some u ↔ ∃ level, levelOfFormLen f.length = some level ∧
      (∀ i ∈ tagIndices level, f[i]? = some cascadeTag) ∧ dropTags (level - 1) f = u := by
  cases h : levelOfFormLen f.length with
  | none => simp [uncascade_of_badLen h]
  | some level => simp [uncascade_of_level h]

theorem length_of_cascade {u f : List Byte} {level : Nat} (h : cascade u = some f)
    (hlevel : levelOfUidLen u.length = some level) : f.length = 4 * level := by
  obtain ⟨level', hlevel', rfl⟩ := cascade_eq_some.1 h
  obtain rfl : level = level' := Option.some.inj (hlevel.symm.trans hlevel')
  have hu := uidLen_of_level hlevel
  rw [length_addTags _ _ _ (by omega)]
  omega

/-- Settles O24: the three forms are evaluated; the rest speaks of all lengths. -/
theorem cascadeFormLayout : Obligations.CascadeFormLayout :=
  ⟨fun _ _ _ _ => rfl, fun _ _ _ _ _ _ _ => rfl, fun _ _ _ _ _ _ _ _ _ _ => rfl,
    fun _ => Option.map_eq_none_iff, fun _ _ _ h hlevel => length_of_cascade h hlevel,
    fun _ _ => levelOfUidLen_eq_some⟩

/-- Settles O25: at each length of a form the bytes at its tag positions decide. -/
theorem uncascadeFormLayout : Obligations.UncascadeFormLayout := by
  refine ⟨fun _ _ _ _ => rfl, fun s0 s1 s2 s3 s4 s5 s6 s7 => ?_,
    fun s0 s1 s2 s3 s4 s5 s6 s7 s8 s9 s10 s11 => ?_,
    fun f h4 h8 h12 => uncascade_of_badLen (levelOfFormLen_eq_none.2 ⟨h4, h8, h12⟩),
    fun _ _ => levelOfFormLen_eq_some⟩
  · rw [uncascade_of_level (level := 2) rfl]
    simp [tagIndices_two, cascadeTag, dropTags]
  · rw [uncascade_of_level (level := 3) rfl]
    simp [tagIndices_three, cascadeTag, dropTags]

theorem uncascade_cascade {u f : List Byte} (h : cascade u = some f) : uncascade f = some u := by
  obtain ⟨level, hlevel, rfl⟩ := cascade_eq_some.1 h
  obtain ⟨hlen, hpos, hle⟩ := uidLen_of_level hlevel
  have hu : 3 * (level - 1) ≤ u.length := by omega
  refine uncascade_eq_some.2 ⟨level, ?_, fun i hi => ?_, dropTags_addTags cascadeTag hu⟩
  · rw [length_of_cascade h hlevel, levelOfFormLen_of_level hpos hle]
  · obtain ⟨k, hk, rfl⟩ := mem_tagIndices.1 hi
    exact getElem?_addTags_tag cascadeTag hu hk

theorem cascade_uncascade {f u : List Byte} (h : uncascade f = some u) : cascade u = some f := by
  obtain ⟨level, hlevel, htags, rfl⟩ := uncascade_eq_some.1 h
  obtain ⟨hlen, hpos, hle⟩ := formLen_of_level hlevel
  have hu : (dropTags (level - 1) f).length = 3 * level + 1 := by
    rw [length_dropTags _ _ (by omega)]; omega
  refine cascade_eq_some.2 ⟨level, ?_, addTags_dropTags hpos hlen htags⟩
  rw [hu, levelOfUidLen_of_level hpos hle]

end Sys2Proof.Machine
end

section
/-! The two cascade-UID commands (spec/41_cascade_uid.md R90, R91): what each leaves in the buffer and
the registers, for every level at once. -/

namespace Sys2Proof.Machine

/-! ### The bytes -/

theorem Memory.getElem?_contents (m : Memory) (n a : Nat) :
    (m.contents n)[a]? = if a < n then some (m.read a) else none := by
  rcases Nat.lt_or_ge a n with ha | ha
  · simp [Memory.contents, ha]
  · simp [Memory.contents, Nat.not_lt.2 ha]

theorem Memory.read_putAll_zero {m : Memory} {cs : List (Option Byte)} {a : Nat}
    {c : Option Byte} (h : cs[a]? = some c) : (m.putAll 0 cs).read a = c := by
  obtain ⟨ha, rfl⟩ := List.getElem?_eq_some_iff.1 h
  simpa using Memory.read_putAll_inside m (i := 0) cs ha

/-- `CASCADE_UID` of a UID of the given level led from `s` to `t` (R90). -/
structure Serialised (level : Nat) (s t : State) : Prop where
  tag : ∀ i ∈ tagIndices level, t.buf.read i = some cascadeTag
  uid : ∀ j < 3 * level + 1, t.buf.read (formIndex (level - 1) j) = s.buf.read j
  above : ∀ a, 4 * level ≤ a → t.buf.read a = s.buf.read a
  len : t.lenNat = 4 * level
  ok : t.succeeded 0#1 (BitVec.ofNat 2 level)
  crc : t.crc = s.crc
  host : SameHostSide s t

/-- `UNCASCADE_UID` of a form of the given level led from `s` to `t` (R91). -/
structure Deserialised (level : Nat) (s t : State) : Prop where
  tag : ∀ i ∈ tagIndices level, s.byteAt i = cascadeTag
  uid : ∀ j < 3 * level + 1, t.buf.read j = s.buf.read (formIndex (level - 1) j)
  above : ∀ a, 3 * level + 1 ≤ a → t.buf.read a = s.buf.read a
  len : t.lenNat = 3 * level + 1
  ok : t.succeeded 0#1 (BitVec.ofNat 2 level)
  crc : t.crc = s.crc
  host : SameHostSide s t

variable {s t : State} {level : Nat}

theorem Serialised.read_eq (h : Serialised level s t) {a j : Nat} (hj : j < 3 * level + 1)
    (ha : formIndex (level - 1) j = a) : t.buf.read a = s.buf.read j := by
  rw [← ha, h.uid j hj]

theorem Deserialised.read_eq (h : Deserialised level s t) {a j : Nat} (hj : j < 3 * level + 1)
    (ha : formIndex (level - 1) j = a) : t.buf.read j = s.buf.read a := by
  rw [← ha, h.uid j hj]

theorem serialised_cascadeBuf (h : levelOfUidLen s.lenNat = some level) :
    Serialised level s (cascadeBuf s) := by
  obtain ⟨hbuf, hlen, hok, hcrc, -, hhost⟩ := cascadeBuf_spec s h
  obtain ⟨hs, hpos, -⟩ := uidLen_of_level h
  have hu : 3 * (level - 1) ≤ (s.buf.contents s.lenNat).length := by
    rw [Memory.length_contents]; omega
  refine ⟨fun i hi => ?_, fun j hj => ?_, fun a ha => ?_, hlen, hok, hcrc, hhost⟩
  · obtain ⟨k, hk, rfl⟩ := mem_tagIndices.1 hi
    rw [hbuf]
    exact Memory.read_putAll_zero (getElem?_addTags_tag _ hu hk)
  · rw [hbuf]
    refine Memory.read_putAll_zero ?_
    rw [getElem?_addTags_formIndex _ hu, Memory.getElem?_contents, if_pos (by omega)]
  · have hform := length_addTags (some cascadeTag) _ _ hu
    rw [Memory.length_contents] at hform
    rw [hbuf, Memory.read_putAll_outside _ _ (by omega)]

theorem deserialised_uncascadeBuf (h : levelOfFormLen s.lenNat = some level)
    (htags : ∀ i ∈ tagIndices level, s.byteAt i = cascadeTag) :
    Deserialised level s (uncascadeBuf s) := by
  obtain ⟨hbuf, hlen, hok, hcrc, hhost⟩ := uncascadeBuf_spec s h htags
  obtain ⟨hs, hpos, -⟩ := formLen_of_level h
  have hf : 4 * (level - 1) ≤ (s.buf.contents s.lenNat).length := by
    rw [Memory.length_contents]; omega
  refine ⟨htags, fun j hj => ?_, fun a ha => ?_, hlen, hok, hcrc, hhost⟩
  · rw [hbuf]
    refine Memory.read_putAll_zero ?_
    have := formIndex_lt hpos hj
    rw [getElem?_dropTags hf, Memory.getElem?_contents, if_pos (by omega)]
  · have huid := length_dropTags _ _ hf
    rw [Memory.length_contents] at huid
    rw [hbuf, Memory.read_putAll_outside _ _ (by omega)]

/-! ### The commands -/

/-- A UID of a defined level fits the buffer, as `BUFCAP` is at least 12 (R3). -/
theorem exec_cascadeUid_of_level (h : levelOfUidLen s.lenNat = some level) :
    exec .cascadeUid s = .next (cascadeBuf s) := by
  obtain ⟨hs, -, hle⟩ := uidLen_of_level h
  have hcap := s.config.atLeast
  exact congrArg _ (checkLen_of_le (by omega) _)

/-- Every length that is no UID's is one error, above `BUFCAP` or not (R90). -/
theorem exec_cascadeUid_of_badLen (h : levelOfUidLen s.lenNat = none) :
    exec .cascadeUid s = .next (s.failedWith 0x02#8) := by
  rcases checkLen_cases s cascadeBuf with ⟨-, hcheck⟩ | ⟨-, hcheck⟩
  · exact congrArg _ hcheck
  · exact congrArg _ (hcheck.trans (cascadeBuf_of_badLen s h))

/-- A form of a defined level fits the buffer, as `BUFCAP` is at least 12 (R3). -/
theorem exec_uncascadeUid_of_level (h : levelOfFormLen s.lenNat = some level) :
    exec .uncascadeUid s = .next (uncascadeBuf s) := by
  obtain ⟨hs, -, hle⟩ := formLen_of_level h
  have hcap := s.config.atLeast
  exact congrArg _ (checkLen_of_le (by omega) _)

theorem exec_uncascadeUid_of_badLen (hle : s.lenNat ≤ s.config.bufcap)
    (h : levelOfFormLen s.lenNat = none) :
    exec .uncascadeUid s = .next (s.failedWith 0x03#8) :=
  congrArg _ ((checkLen_of_le hle _).trans (uncascadeBuf_of_badLen s h))

theorem exec_uncascadeUid_of_badTag (h : levelOfFormLen s.lenNat = some level) {i : Nat}
    (hi : i ∈ tagIndices level) (htag : s.byteAt i ≠ cascadeTag) :
    ∃ d, exec .uncascadeUid s = .next { s.failedWith 0x03#8 with draws := d } := by
  obtain ⟨d, hd⟩ := afterReading_eq s (tagIndices level)
  refine ⟨d, (exec_uncascadeUid_of_level h).trans ?_⟩
  rw [uncascadeBuf_of_badTag s h fun htags => htag (htags i hi), hd]
  rfl

theorem exec_cascadeUid_serialised (h : levelOfUidLen s.lenNat = some level) :
    ∃ t, exec .cascadeUid s = .next t ∧ Serialised level s t :=
  ⟨_, exec_cascadeUid_of_level h, serialised_cascadeBuf h⟩

theorem exec_uncascadeUid_deserialised (h : levelOfFormLen s.lenNat = some level)
    (htags : ∀ i ∈ tagIndices level, s.byteAt i = cascadeTag) :
    ∃ t, exec .uncascadeUid s = .next t ∧ Deserialised level s t :=
  ⟨_, exec_uncascadeUid_of_level h, deserialised_uncascadeBuf h htags⟩

/-- Settles O26: the UID's bytes are found at their `formIndex`. -/
theorem cascadeUidSerialises : Obligations.CascadeUidSerialises := by
  refine ⟨rfl, fun s hs => ?_, fun s hs => ?_, fun s hs => ?_, fun s h4 h7 h10 =>
    exec_cascadeUid_of_badLen (levelOfUidLen_eq_none.2 ⟨h4, h7, h10⟩)⟩
  · obtain ⟨t, ht, hser⟩ := exec_cascadeUid_serialised (level := 1) (by rw [hs]; rfl)
    refine ⟨t, ht, fun a => ?_, hser.len, hser.ok, hser.crc, hser.host⟩
    rcases Nat.lt_or_ge a 4 with ha | ha
    · exact hser.uid a ha
    · exact hser.above a ha
  · obtain ⟨t, ht, hser⟩ := exec_cascadeUid_serialised (level := 2) (by rw [hs]; rfl)
    exact ⟨t, ht, hser.tag 0 (by decide),
      fun j hj => hser.read_eq hj (by unfold formIndex; omega),
      hser.above, hser.len, hser.ok, hser.crc, hser.host⟩
  · obtain ⟨t, ht, hser⟩ := exec_cascadeUid_serialised (level := 3) (by rw [hs]; rfl)
    exact ⟨t, ht, hser.tag 0 (by decide),
      fun j hj => hser.read_eq (by omega) (by unfold formIndex; omega),
      hser.tag 4 (by decide), fun j hj => hser.read_eq (by omega) (by unfold formIndex; omega),
      hser.above, hser.len, hser.ok, hser.crc, hser.host⟩

/-- Settles O27: the UID's bytes come from their `formIndex`. -/
theorem uncascadeUidDeserialises : Obligations.UncascadeUidDeserialises := by
  refine ⟨rfl, fun s hs => ?_, fun s hs h0 => ?_, fun s hs h0 h4 => ?_,
    fun s h => exec_of_oversized (by simp) rfl h, fun s hle h4 h8 h12 =>
    exec_uncascadeUid_of_badLen hle (levelOfFormLen_eq_none.2 ⟨h4, h8, h12⟩),
    fun s hs h0 => ?_, fun s hs h4 => ?_⟩
  · obtain ⟨t, ht, hdes⟩ := exec_uncascadeUid_deserialised (s := s) (level := 1) (by rw [hs]; rfl)
      (by simp [tagIndices_one])
    refine ⟨t, ht, fun a => ?_, hdes.len, hdes.ok, hdes.crc, hdes.host⟩
    rcases Nat.lt_or_ge a 4 with ha | ha
    · exact hdes.uid a ha
    · exact hdes.above a ha
  · obtain ⟨t, ht, hdes⟩ := exec_uncascadeUid_deserialised (s := s) (level := 2) (by rw [hs]; rfl)
      (by simpa [tagIndices_two, cascadeTag] using h0)
    exact ⟨t, ht, fun j hj => hdes.read_eq hj (by unfold formIndex; omega),
      hdes.above, hdes.len, hdes.ok, hdes.crc, hdes.host⟩
  · obtain ⟨t, ht, hdes⟩ := exec_uncascadeUid_deserialised (s := s) (level := 3) (by rw [hs]; rfl)
      (by simpa [tagIndices_three, cascadeTag] using ⟨h0, h4⟩)
    exact ⟨t, ht, fun j hj => hdes.read_eq (by omega) (by unfold formIndex; omega),
      fun j hj => hdes.read_eq (by omega) (by unfold formIndex; omega),
      hdes.above, hdes.len, hdes.ok, hdes.crc, hdes.host⟩
  · rcases hs with hs | hs
    · exact exec_uncascadeUid_of_badTag (level := 2) (by rw [hs]; rfl) (by decide) h0
    · exact exec_uncascadeUid_of_badTag (level := 3) (by rw [hs]; rfl) (by decide) h0
  · exact exec_uncascadeUid_of_badTag (level := 3) (by rw [hs]; rfl) (by decide) h4

/-- Settles O30: the length alone decides between the error and the level. -/
theorem cascadeIgnoresByteValues : Obligations.CascadeIgnoresByteValues := by
  intro s m
  cases h : levelOfUidLen s.lenNat with
  | none =>
    exact ⟨_, _, exec_cascadeUid_of_badLen h, exec_cascadeUid_of_badLen (s := s.withBuf m) h,
      rfl, rfl, rfl, rfl, rfl⟩
  | some level =>
    obtain ⟨t, ht, hser⟩ := exec_cascadeUid_serialised h
    obtain ⟨u, hu, hser'⟩ := exec_cascadeUid_serialised (s := s.withBuf m) h
    exact ⟨t, u, ht, hu, BitVec.eq_of_toNat_eq (hser'.len.trans hser.len.symm),
      hser'.ok.level_eq.trans hser.ok.level_eq.symm, hser'.ok.err_eq.trans hser.ok.err_eq.symm,
      hser'.ok.matchFlag_eq.trans hser.ok.matchFlag_eq.symm, hser'.crc.trans hser.crc.symm⟩

end Sys2Proof.Machine
end

section
/-! What the two cascade-UID commands keep together: each undoes the other (spec/41_cascade_uid.md
section 3), and the level they leave fits `LEN` (spec/10_state.md R23). -/

namespace Sys2Proof.Machine

variable {s t u : State} {level : Nat}

/-- An `UNCASCADE_UID` that succeeds has found the length of a form and its tags. -/
theorem deserialised_of_noError (h : exec .uncascadeUid s = .next t) (herr : t.err = 0x00#8) :
    ∃ level, levelOfFormLen s.lenNat = some level ∧ Deserialised level s t := by
  have notFailed (hf : FailedFrom s t) : False := by
    obtain ⟨c, d, hc, rfl⟩ := hf
    exact isErrorCode_ne_zero hc herr
  obtain rfl : checkLen s uncascadeBuf = t := Host.Outcome.next.inj h
  rcases checkLen_cases s uncascadeBuf with ⟨-, hcheck⟩ | ⟨-, hcheck⟩
  · exact (notFailed (hcheck ▸ failedFrom_failedWith s (.inr (.inl rfl)))).elim
  · rw [hcheck] at notFailed ⊢
    rcases uncascadeBuf_cases s with hf | ⟨level, hlevel, htags⟩
    · exact (notFailed hf).elim
    · exact ⟨level, hlevel, deserialised_uncascadeBuf hlevel htags⟩

theorem Deserialised.read_of_serialised (hdes : Deserialised level t u)
    (hser : Serialised level s t) {j : Nat} (hj : j < 3 * level + 1) :
    u.buf.read j = s.buf.read j :=
  (hdes.uid j hj).trans (hser.uid j hj)

/-- A tag that had been written was the tag; an unwritten one has been drawn as it. -/
theorem Serialised.read_of_deserialised (hser : Serialised level t u)
    (hdes : Deserialised level s t) {a : Nat} (ha : a < 4 * level) {b : Byte}
    (hb : s.buf.read a = some b) : u.buf.read a = some b := by
  rcases tagIndex_or_formIndex ha with htag | ⟨j, hj, rfl⟩
  · rw [hser.tag a htag, ← hdes.tag a htag, byteAt_of_read hb]
  · rw [hser.uid j hj, hdes.uid j hj, hb]

/-- Settles O28: `UNCASCADE_UID` finds the length and the tags that `CASCADE_UID` left; what it does
not write are the last bytes of the form (`stale`). -/
theorem cascadeThenUncascadeRestores : Obligations.CascadeThenUncascadeRestores := by
  refine ⟨fun _ _ => uncascade_cascade, fun s hs => ?_⟩
  obtain ⟨level, hlevel⟩ : ∃ level, levelOfUidLen s.lenNat = some level :=
    Option.ne_none_iff_exists'.1 fun hnone => by
      obtain ⟨h4, h7, h10⟩ := levelOfUidLen_eq_none.1 hnone
      omega
  obtain ⟨hlen, hpos, hle⟩ := uidLen_of_level hlevel
  obtain ⟨t, ht, hser⟩ := exec_cascadeUid_serialised hlevel
  have hform : levelOfFormLen t.lenNat = some level := by
    rw [hser.len, levelOfFormLen_of_level hpos hle]
  obtain ⟨u, hu, hdes⟩ :=
    exec_uncascadeUid_deserialised hform fun i hi => byteAt_of_read (hser.tag i hi)
  have stale {j a : Nat} (hj : j < 3 * level + 1) (ha : 3 * level + 1 ≤ a)
      (hja : formIndex (level - 1) j = a) : u.buf.read a = s.buf.read j := by
    rw [hdes.above a ha, hser.read_eq hj hja]
  refine ⟨t, u, ht, hu, hdes.ok.err_eq, BitVec.eq_of_toNat_eq (hdes.len.trans hlen.symm),
    fun a ha => hdes.read_of_serialised hser (by omega), ?_, fun h7 => ?_, fun h10 => ?_⟩
  · rw [hdes.ok.level_eq, toNat_ofNat_level hle, hlevel]
  · obtain rfl : level = 2 := by omega
    exact stale (by omega) (by omega) rfl
  · obtain rfl : level = 3 := by omega
    exact ⟨stale (by omega) (by omega) rfl, stale (by omega) (by omega) rfl⟩

/-- Settles O29, by what a successful `UNCASCADE_UID` found. -/
theorem uncascadeThenCascadeRestores : Obligations.UncascadeThenCascadeRestores := by
  refine ⟨fun _ _ => cascade_uncascade, fun s t h herr => ?_⟩
  obtain ⟨level, hlevel, hdes⟩ := deserialised_of_noError h herr
  obtain ⟨hlen, hpos, hle⟩ := formLen_of_level hlevel
  have huid : levelOfUidLen t.lenNat = some level := by
    rw [hdes.len, levelOfUidLen_of_level hpos hle]
  obtain ⟨u, hu, hser⟩ := exec_cascadeUid_serialised huid
  exact ⟨u, hu, hser.ok.err_eq, hser.ok.level_eq.trans hdes.ok.level_eq.symm,
    BitVec.eq_of_toNat_eq (hser.len.trans hlen.symm),
    fun a b ha hb => hser.read_of_deserialised hdes (by omega) hb⟩

/-! ### The level and `LEN` -/

theorem exec_levelFitsLen {i : Instr} (hs : s.LevelFitsLen) (h : exec i s = .next t) :
    t.LevelFitsLen := by
  by_cases hn : i = .nop
  · subst hn; cases h; exact hs
  · intro hlevel
    obtain ⟨-, -, ⟨-, -, hform⟩ | ⟨-, -, huid⟩⟩ := levelIsSetOnlyByCascadeCommands i s t hn h hlevel
    · exact .inl hform
    · exact .inr (uidLen_of_level huid).1

/-- Of the transactions only a command and a write of `LEN` touch `LEN` while they leave a level. -/
theorem perform_levelFitsLen {tr : Transaction} (hs : s.LevelFitsLen)
    (h : perform tr s = .next t) (hlen : tr.writesLen = false) : t.LevelFitsLen := by
  rcases perform_cases h with ⟨n, r, -, -, rfl⟩ | ⟨op, -, hx⟩ | ⟨v, rfl, -⟩ |
    ⟨n, v, -, -, -, rfl⟩ | ⟨j, -, -, rfl⟩ | ⟨j, b, -, -, rfl⟩ | ⟨-, rfl⟩
  · exact hs
  · exact exec_levelFitsLen hs hx
  · cases hlen
  · exact hs
  · simpa [State.LevelFitsLen, State.lenNat] using hs
  · exact hs
  · exact fun hlevel => absurd rfl hlevel

/-- Settles O53: an idle step stands still, and any other performs the oldest transaction. -/
theorem levelFitsLenUntilLenIsWritten : Obligations.LevelFitsLenUntilLenIsWritten := by
  intro s s' hs h hlen
  rcases step_cases h with ⟨-, rfl⟩ | ⟨tr, rest, hp, hperform⟩
  · exact hs
  · exact perform_levelFitsLen (s := { s with pending := rest }) hs hperform (hlen tr rest hp)

end Sys2Proof.Machine
end

section
/-! What a command can change in the buffer (spec/42_control.md R107): nothing with `NOP` (R105), and
otherwise only bytes of the sequence that an append or a cascade command stores. -/

namespace Sys2Proof.Machine

/-- Settles O6: R105's code and `execNop` are the model's own equations. -/
theorem nopChangesNothing : Obligations.NopChangesNothing := ⟨rfl, fun _ => rfl⟩

theorem Memory.inside_of_read_putAll_ne {m : Memory} {i a : Nat} {cs : List (Option Byte)}
    (h : (m.putAll i cs).read a ≠ m.read a) : i ≤ a ∧ a < i + cs.length := by
  by_contra hout
  exact h (Memory.read_putAll_outside m cs (by omega))

variable {m : Memory} {n level a : Nat}

/-- The form that `CASCADE_UID` stores is `4 * level` bytes long (R85, R87). -/
theorem lt_of_read_putAll_addTags_ne (huid : levelOfUidLen n = some level) {tag : Option Byte}
    (h : (m.putAll 0 (addTags tag (level - 1) (m.contents n))).read a ≠ m.read a) :
    a < 4 * level := by
  obtain ⟨hn, hpos, -⟩ := uidLen_of_level huid
  obtain ⟨-, ha⟩ := Memory.inside_of_read_putAll_ne h
  rw [length_addTags _ _ _ (by rw [Memory.length_contents]; omega), Memory.length_contents] at ha
  omega

/-- The UID that `UNCASCADE_UID` stores is `3 * level + 1` bytes long (R85, R88). -/
theorem lt_of_read_putAll_dropTags_ne (hform : levelOfFormLen n = some level)
    (h : (m.putAll 0 (dropTags (level - 1) (m.contents n))).read a ≠ m.read a) :
    a < 3 * level + 1 := by
  obtain ⟨hn, hpos, -⟩ := formLen_of_level hform
  obtain ⟨-, ha⟩ := Memory.inside_of_read_putAll_ne h
  rw [length_dropTags _ _ (by rw [Memory.length_contents]; omega), Memory.length_contents] at ha
  omega

/-- Settles O41, by the six effects a command can have: a changed byte lies in the stored sequence,
which fits the buffer, as `BUFCAP` is at least 12 (R3). -/
theorem commandsWriteOnlyInsideTheBuffer : Obligations.CommandsWriteOnlyInsideTheBuffer := by
  intro i s t a h hchanged
  by_cases hn : i = .nop
  · subst hn; cases h; exact absurd rfl hchanged
  obtain ⟨-, he⟩ := exec_effect hn h
  have hcap := s.config.atLeast
  cases he with
  | failed _ _ _ _ _ buf => exact absurd (by rw [buf]) hchanged
  | computed _ _ _ _ buf => exact absurd (by rw [buf]) hchanged
  | checked _ _ _ _ _ _ buf => exact absurd (by rw [buf]) hchanged
  | appended cmd fits _ _ _ buf =>
    rw [buf] at hchanged
    have hin := Memory.inside_of_read_putAll_ne hchanged
    simp only [le16, List.length_map, List.length_cons, List.length_nil] at hin
    exact ⟨by omega, .inl ⟨cmd.imp And.left And.left, by omega⟩⟩
  | cascaded cmd uid _ _ len buf =>
    obtain ⟨-, -, hle⟩ := uidLen_of_level uid
    rw [buf] at hchanged
    have hin := lt_of_read_putAll_addTags_ne uid hchanged
    exact ⟨by omega, .inr (.inl ⟨cmd, by omega⟩)⟩
  | uncascaded cmd form _ _ len buf =>
    obtain ⟨-, -, hle⟩ := formLen_of_level form
    rw [buf] at hchanged
    have hin := lt_of_read_putAll_dropTags_ne form hchanged
    exact ⟨by omega, .inr (.inr ⟨cmd, by omega⟩)⟩

end Sys2Proof.Machine
end

section
/-! The errors and the status triple (spec/60_exceptions.md R110 to R116): which error each command
reports, what an error leaves alone, and what writes the triple. -/

namespace Sys2Proof.Machine

variable {s t : State} {i : Instr} {f : List Byte → Half}

/-- Settles O31. -/
theorem oversizedLengthIsInvalidArgument : Obligations.OversizedLengthIsInvalidArgument :=
  fun _ _ hn hr h => exec_of_oversized hn hr h

/-! ### The error of each command (R116) -/

theorem exec_computeCrc_err (hi : UsesCrc .crcA .crcB i f) (hle : s.lenNat ≤ s.config.bufcap) :
    ∃ t, exec i s = .next t ∧ t.err = 0x00#8 := by
  obtain ⟨t, ht, -, hok, -⟩ := exec_computeCrc hi hle
  exact ⟨t, ht, hok.err_eq⟩

theorem exec_appendCrc_err (hi : UsesCrc .appendCrcA .appendCrcB i f)
    (hle : s.lenNat ≤ s.config.bufcap) :
    ∃ t, exec i s = .next t ∧
      t.err = if s.config.bufcap < s.lenNat + 2 then 0x01#8 else 0x00#8 := by
  split_ifs with hshort
  · exact ⟨_, exec_appendCrc_of_short hi hle hshort, rfl⟩
  · obtain ⟨t, ht, -, -, -, -, -, hok, -⟩ := exec_appendCrc hi (Nat.le_of_not_lt hshort)
    exact ⟨t, ht, hok.err_eq⟩

theorem exec_checkCrc_err (hi : UsesCrc .checkCrcA .checkCrcB i f)
    (hle : s.lenNat ≤ s.config.bufcap) :
    ∃ t, exec i s = .next t ∧ t.err = if s.lenNat < 2 then 0x03#8 else 0x00#8 := by
  split_ifs with hshort
  · exact ⟨_, exec_checkCrc_of_short hi hshort, rfl⟩
  · obtain ⟨t, ht, -, hok, -⟩ := exec_checkCrc hi (Nat.le_of_not_lt hshort) hle
    exact ⟨t, ht, hok.err_eq⟩

theorem exec_cascadeUid_err (s : State) :
    ∃ t, exec .cascadeUid s = .next t ∧
      t.err = if s.lenNat = 4 ∨ s.lenNat = 7 ∨ s.lenNat = 10 then 0x00#8 else 0x02#8 := by
  cases h : levelOfUidLen s.lenNat with
  | none =>
    obtain ⟨h4, h7, h10⟩ := levelOfUidLen_eq_none.1 h
    rw [if_neg (by omega)]
    exact ⟨_, exec_cascadeUid_of_badLen h, rfl⟩
  | some level =>
    obtain ⟨t, ht, hser⟩ := exec_cascadeUid_serialised h
    obtain ⟨hlen, hpos, hlevel⟩ := uidLen_of_level h
    rw [if_pos (by omega)]
    exact ⟨t, ht, hser.ok.err_eq⟩

/-- The length comes before the tags; the tag at 0 is looked at from 8 bytes up, the one at 4 in a
form of 12 (R88, R91). -/
theorem exec_uncascadeUid_err (hle : s.lenNat ≤ s.config.bufcap) :
    ∃ t, exec .uncascadeUid s = .next t ∧
      t.err =
        if s.lenNat ≠ 4 ∧ s.lenNat ≠ 8 ∧ s.lenNat ≠ 12 then 0x03#8
        else if 8 ≤ s.lenNat ∧ s.byteAt 0 ≠ 0x88#8 then 0x03#8
        else if s.lenNat = 12 ∧ s.byteAt 4 ≠ 0x88#8 then 0x03#8
        else 0x00#8 := by
  cases h : levelOfFormLen s.lenNat with
  | none =>
    rw [if_pos (levelOfFormLen_eq_none.1 h)]
    exact ⟨_, exec_uncascadeUid_of_badLen hle h, rfl⟩
  | some level =>
    obtain ⟨hlen, hpos, hlevel⟩ := formLen_of_level h
    have badTag {k : Nat} (hk : k < level - 1) (htag : s.byteAt (4 * k) ≠ 0x88#8) :
        ∃ t, exec .uncascadeUid s = .next t ∧ t.err = 0x03#8 := by
      obtain ⟨d, ht⟩ := exec_uncascadeUid_of_badTag h (mem_tagIndices.2 ⟨k, hk, rfl⟩) htag
      exact ⟨_, ht, rfl⟩
    rw [if_neg (by omega)]
    split_ifs with h0 h4
    · exact badTag (k := 0) (by omega) h0.2
    · exact badTag (k := 1) (by omega) h4.2
    · have htags : ∀ i ∈ tagIndices level, s.byteAt i = cascadeTag := fun i hi => by
        obtain ⟨k, hk, rfl⟩ := mem_tagIndices.1 hi
        by_contra htag
        obtain rfl | rfl : k = 0 ∨ k = 1 := by omega
        · exact h0 ⟨by omega, htag⟩
        · exact h4 ⟨by omega, htag⟩
      obtain ⟨t, ht, hdes⟩ := exec_uncascadeUid_deserialised h htags
      exact ⟨t, ht, hdes.ok.err_eq⟩

/-- Settles O32: a reserved code, then an oversized length, then each command's own error. -/
theorem firstErrorInOrderIsReported : Obligations.FirstErrorInOrderIsReported := fun s =>
  ⟨fun _ hr => ⟨_, exec_of_reserved hr s, rfl⟩,
    fun _ hn hr h => ⟨_, exec_of_oversized hn hr h, rfl⟩,
    fun hle => ⟨
      exec_computeCrc_err (.inl ⟨rfl, rfl⟩) hle, exec_computeCrc_err (.inr ⟨rfl, rfl⟩) hle,
      exec_appendCrc_err (.inl ⟨rfl, rfl⟩) hle, exec_appendCrc_err (.inr ⟨rfl, rfl⟩) hle,
      exec_checkCrc_err (.inl ⟨rfl, rfl⟩) hle, exec_checkCrc_err (.inr ⟨rfl, rfl⟩) hle,
      exec_cascadeUid_err s, exec_uncascadeUid_err hle⟩⟩

/-! ### What an error leaves alone (R112, R114) -/

/-- An error in `ERR` is the work of a `raise`: each of the other endings reports success. -/
theorem exec_failedFrom (hn : i ≠ .nop) (h : exec i s = .next t) (herr : t.err ≠ 0x00#8) :
    FailedFrom s t := by
  rcases exec_cases hn h with hf | ⟨-, ⟨f, -, rfl⟩ | ⟨f, -, hfit, rfl⟩ | ⟨f, -, h2, rfl⟩ |
    ⟨level, -, hlevel, rfl⟩ | ⟨level, -, hlevel, htags, rfl⟩⟩
  · exact hf
  · obtain ⟨-, hok, -⟩ := computeCrc_spec f s
    exact absurd hok.err_eq herr
  · obtain ⟨-, hok, -⟩ := appendCrc_spec f s hfit
    exact absurd hok.err_eq herr
  · obtain ⟨-, hok, -⟩ := checkCrc_spec f s h2
    exact absurd hok.err_eq herr
  · exact absurd (serialised_cascadeBuf hlevel).ok.err_eq herr
  · exact absurd (deserialised_uncascadeBuf hlevel htags).ok.err_eq herr

/-- Settles O33. -/
theorem errorsLeaveNoPartialResult : Obligations.ErrorsLeaveNoPartialResult := by
  intro i s t hn h herr
  obtain ⟨c, d, hc, rfl⟩ := exec_failedFrom hn h herr
  exact ⟨hc, d, rfl⟩

/-! ### What writes the status triple (R111) -/

/-- Of the transactions only a write of `CMD` and a reset touch the status triple. -/
theorem perform_keepsStatus {tr : Transaction} (h : perform tr s = .next t) (hreset : tr ≠ .reset)
    (hcmd : ∀ v, tr ≠ .regWrite 0 v) :
    t.err = s.err ∧ t.matchFlag = s.matchFlag ∧ t.level = s.level := by
  rcases perform_cases h with ⟨n, r, -, -, rfl⟩ | ⟨op, htr, -⟩ | ⟨v, -, rfl⟩ |
    ⟨n, v, -, -, -, rfl⟩ | ⟨j, -, -, rfl⟩ | ⟨j, b, -, -, rfl⟩ | ⟨htr, -⟩
  · exact ⟨rfl, rfl, rfl⟩
  · exact absurd htr (hcmd _)
  · exact ⟨rfl, rfl, rfl⟩
  · exact ⟨rfl, rfl, rfl⟩
  · exact ⟨afterReading_err s _, afterReading_matchFlag s _, afterReading_level s _⟩
  · exact ⟨rfl, rfl, rfl⟩
  · exact absurd htr hreset

/-- Settles O34, by `exec_withStatus` and `perform_keepsStatus`. -/
theorem statusTripleIsRewrittenWhole : Obligations.StatusTripleIsRewrittenWhole :=
  ⟨fun _ s e m l hn => exec_withStatus hn s e m l, fun _ _ _ => perform_keepsStatus⟩

end Sys2Proof.Machine
end

section
/-! Reset and what the commands do straight after it (spec/70_reset_and_hazards.md R130 to R133). -/

namespace Sys2Proof.Machine

variable {f : List Byte → Half} {i : Instr} {s : State}

/-! ### The reset values (R131) -/

/-- The power-on state is a reset state, so what a reset leaves holds of it too (R130, R131). -/
theorem resetBlock_reset : resetBlock State.reset = State.reset := rfl

/-- Settles O49: the registers by the laws of `resetBlock`; the empty memory lists no byte. -/
theorem resetLeavesTheResetValues : Obligations.ResetLeavesTheResetValues :=
  ⟨fun s => ⟨resetBlock s, rfl, resetBlock_len s, resetBlock_crc s, resetBlock_err s,
      resetBlock_matchFlag s, resetBlock_level s, Memory.read_nil, resetBlock_config s, rfl, rfl⟩,
    rfl, rfl, rfl, rfl, rfl, Memory.read_nil, rfl, rfl⟩

/-- Settles O51: `resetBlock_inv` at the power-on state, which has no level to fit. -/
theorem invariantHoldsAtReset : Obligations.InvariantHoldsAtReset :=
  ⟨resetBlock_reset ▸ resetBlock_inv State.reset, fun hlevel => absurd rfl hlevel⟩

/-! ### Commands that draw nothing (R132, R133) -/

/-- A reading of the payload draws nothing when every byte of it has been written. -/
theorem afterReading_payload_of_written (hw : s.allWritten s.lenNat) :
    s.afterReading s.payloadIndices = s :=
  afterReading_of_written s _ ((written_range_iff s s.lenNat).2 hw)

theorem computeCrc_draws_of_written (f : List Byte → Half) (hw : s.allWritten s.lenNat) :
    (computeCrc f s).draws = s.draws := by
  rw [computeCrc, afterReading_payload_of_written hw]; rfl

theorem appendCrc_draws_of_written (f : List Byte → Half) (hw : s.allWritten s.lenNat)
    (hfit : s.lenNat + 2 ≤ s.config.bufcap) : (appendCrc f s).draws = s.draws := by
  rw [appendCrc_of_fits f s hfit, afterReading_payload_of_written hw]; rfl

theorem allWritten_of_empty (h0 : s.lenNat = 0) : s.allWritten s.lenNat :=
  fun a ha => absurd ha (by omega)

/-! ### Commands on the empty payload (R76, R133) -/

theorem exec_computeCrc_of_empty (hi : UsesCrc .crcA .crcB i f) (h0 : s.lenNat = 0) :
    ∃ u, exec i s = .next u ∧ u.crc = f [] ∧ u.err = 0x00#8 ∧ u.draws = s.draws := by
  obtain ⟨hcrc, hok, -⟩ := computeCrc_spec f s
  rw [payload_of_empty h0] at hcrc
  exact ⟨_, exec_computeCrc_of_le hi (by omega), hcrc, hok.err_eq,
    computeCrc_draws_of_written f (allWritten_of_empty h0)⟩

/-- Two bytes fit after the empty payload, as `BUFCAP` is at least 12 (R3). -/
theorem exec_appendCrc_of_empty (hi : UsesCrc .appendCrcA .appendCrcB i f) (h0 : s.lenNat = 0) :
    ∃ u, exec i s = .next u ∧ u.err = 0x00#8 ∧ u.draws = s.draws := by
  have hcap := s.config.atLeast
  have hfit : s.lenNat + 2 ≤ s.config.bufcap := by omega
  obtain ⟨-, hok, -⟩ := appendCrc_spec f s hfit
  exact ⟨_, exec_appendCrc_of_le hi (by omega), hok.err_eq,
    appendCrc_draws_of_written f (allWritten_of_empty h0) hfit⟩

theorem exec_checkCrc_of_empty (hi : UsesCrc .checkCrcA .checkCrcB i f) (h0 : s.lenNat = 0) :
    ∃ u, exec i s = .next u ∧ u.err = 0x03#8 ∧ u.draws = s.draws :=
  ⟨_, exec_checkCrc_of_short hi (by omega), failedWith_err s _, failedWith_draws s _⟩

theorem exec_cascadeUid_of_empty (h0 : s.lenNat = 0) :
    ∃ u, exec .cascadeUid s = .next u ∧ u.err = 0x02#8 ∧ u.draws = s.draws :=
  ⟨_, exec_cascadeUid_of_badLen (levelOfUidLen_eq_none.2 (by omega)), failedWith_err s _,
    failedWith_draws s _⟩

theorem exec_uncascadeUid_of_empty (h0 : s.lenNat = 0) :
    ∃ u, exec .uncascadeUid s = .next u ∧ u.err = 0x03#8 ∧ u.draws = s.draws :=
  ⟨_, exec_uncascadeUid_of_badLen (by omega) (levelOfFormLen_eq_none.2 (by omega)),
    failedWith_err s _, failedWith_draws s _⟩

/-- Settles O50: a reset leaves the empty payload; the CRCs of it are `crcA_nil` and `crcB_nil`. -/
theorem commandsStraightAfterReset : Obligations.CommandsStraightAfterReset := by
  intro s t h
  obtain rfl : resetBlock s = t := Host.Outcome.next.inj h
  have h0 : (resetBlock s).lenNat = 0 := congrArg BitVec.toNat (resetBlock_len s)
  rw [← crcA_nil, ← crcB_nil]
  exact ⟨
    exec_computeCrc_of_empty (.inl ⟨rfl, rfl⟩) h0, exec_computeCrc_of_empty (.inr ⟨rfl, rfl⟩) h0,
    exec_appendCrc_of_empty (.inl ⟨rfl, rfl⟩) h0, exec_appendCrc_of_empty (.inr ⟨rfl, rfl⟩) h0,
    exec_checkCrc_of_empty (.inl ⟨rfl, rfl⟩) h0, exec_checkCrc_of_empty (.inr ⟨rfl, rfl⟩) h0,
    exec_cascadeUid_of_empty h0, exec_uncascadeUid_of_empty h0⟩

end Sys2Proof.Machine
end

section
/-! The idle block (spec/60_exceptions.md R123), and the host's read of a byte that nothing has written
since reset (spec/93_implementation_defined.md U1). -/

namespace Sys2Proof.Machine

variable {s : State} {i : Nat}

/-- Settles O5: the model's own law of the idle step. -/
theorem idleBlockKeepsItsState : Obligations.IdleBlockKeepsItsState := fun _ => step_of_idle

theorem Memory.written_singleton (m : Memory) (i : Nat) : m.written [i] = (m.read i).isSome := by
  simp [Memory.written]

theorem byteAt_of_unwritten (h : s.buf.read i = none) :
    s.byteAt i = Config.freeByte s.draws i := by
  rw [State.byteAt, h, Option.getD_none]

/-- The counterpart of `afterReading_of_written`: the next read draws afresh. -/
theorem afterReading_of_unwritten (h : s.buf.read i = none) :
    s.afterReading [i] = { s with draws := s.draws + 1 } := by
  have hw : ¬ s.buf.written [i] = true := by simp [Memory.written_singleton, h]
  rw [State.afterReading, if_neg hw]

/-- The counterpart of `bufRead_of_written`: the reply is the free byte of this draw. -/
theorem bufRead_of_unwritten (hi : i < s.config.bufcap) (h : s.buf.read i = none) :
    bufRead i s = .next
      (State.reply { s with draws := s.draws + 1 } ⟨8, Config.freeByte s.draws i⟩) := by
  rw [bufRead_of_lt hi, afterReading_of_unwritten h, byteAt_of_unwritten h]

/-- Settles O46: the byte replied is `Config.freeByte` of the draw and the index. -/
theorem unwrittenByteReadCompletes : Obligations.UnwrittenByteReadCompletes := fun s i hi h =>
  ⟨Config.freeByte s.draws i, bufRead_of_unwritten hi h⟩

end Sys2Proof.Machine
end
